-- ==== Sys2Proof/Word.lean ====
section
/-! DEFINITION. The data word of the core and its plainest arithmetic (spec/00_scope.md, R7, R8, R11). -/

namespace Sys2Proof

/-- R7: a signed 64-bit two's-complement word. Its signed value is `BitVec.toInt`. -/
abbrev Word := BitVec 64

/-- R11: `wrap64 x` is the one word congruent to the exact integer `x` modulo 2^64. -/
def wrap64 (x : Int) : Word := BitVec.ofInt 64 x

/-- R11: INT64_MAX = 2^63 - 1. -/
abbrev int64Max : Int := 9223372036854775807

/-- R11: INT64_MIN = -2^63. -/
abbrev int64Min : Int := -9223372036854775808

/-- R8, R9: ADDR_MAX = 2^63 - 1, the highest architectural address. -/
abbrev addrMax : Int := 9223372036854775807

end Sys2Proof
end

