-- ==== Sys2Proof/Syntax.lean ====
section
/-! DEFINITION. The instruction set as syntax (spec/30_encoding.md, R92, R96 to R100): one constructor of `Instr` for
each row of spec/opcode_table.json. -/

namespace Sys2Proof

/-- R92: the three parameter modes. -/
inductive Mode where
  /-- digit 0: the operand is at the raw address -/
  | position
  /-- digit 1: the operand is the raw word -/
  | immediate
  /-- digit 2: the operand is at RB plus the raw word -/
  | relative
deriving DecidableEq, Repr

/-- An operand as it is encoded: its mode digit and its whole raw word (R97, R98). -/
structure Operand where
  mode : Mode
  raw : Word
deriving DecidableEq, Repr

/-- R100: the ten instructions. Operands stand in operand order; `dst` is a write operand, every other one is read. -/
inductive Instr where
  /-- ADD, opcode 1, format RRW (R160) -/
  | add (a b dst : Operand)
  /-- MUL, opcode 2, format RRW (R165) -/
  | mul (a b dst : Operand)
  /-- IN, opcode 3, format W (R180) -/
  | inp (dst : Operand)
  /-- OUT, opcode 4, format R (R185) -/
  | out (a : Operand)
  /-- JT, opcode 5, format RR (R200) -/
  | jt (a b : Operand)
  /-- JF, opcode 6, format RR (R205) -/
  | jf (a b : Operand)
  /-- LT, opcode 7, format RRW (R220) -/
  | lt (a b dst : Operand)
  /-- EQ, opcode 8, format RRW (R225) -/
  | eq (a b dst : Operand)
  /-- ARB, opcode 9, format R (R240) -/
  | arb (a : Operand)
  /-- HLT, opcode 99, format N (R250) -/
  | hlt
deriving DecidableEq, Repr

/-- R2, R100: the ten opcodes, as the decoder reads them before any operand. -/
inductive Opcode where
  | add | mul | inp | out | jt | jf | lt | eq | arb | hlt
deriving DecidableEq, Repr

end Sys2Proof
end

