-- ==== Sys2Proof/Decode.lean ====
section
/-! DEFINITION. The decoder of spec/30_encoding.md (R90 to R103), total on every sequence of words, and after it the
encoder of R102. Instruction fields are decimal digits of the word's integer value. -/

namespace Sys2Proof

/-! ## The decoder -/

/-- Why a sequence of words is no instruction. -/
inductive DecodeError where
  /-- R91, R95: a negative word, or an opcode outside {1 .. 9, 99} -/
  | invalidOpcode
  /-- R93: a mode digit of 3 to 9 -/
  | invalidMode
  /-- fewer words than the opcode's length (R96); memory never raises it, since every address there holds a word -/
  | truncated
deriving DecidableEq, Repr

/-- R12: digit `k` of a non-negative word, digit 0 the units digit. -/
def digit (k : Nat) (w : Word) : Nat := w.toNat / 10 ^ k % 10

/-- R100: the value of `OP`. -/
def Opcode.code : Opcode → Nat
  | .add => 1 | .mul => 2 | .inp => 3 | .out => 4 | .jt => 5
  | .jf => 6 | .lt => 7 | .eq => 8 | .arb => 9 | .hlt => 99

/-- R95, R100: the opcode of `w mod 100`, none for 0 and for 10 to 98, and for nothing else below 100. These are 90 values, where
R101 counts 89 beside the same set: the set is followed, not the count (DEDUCED; log entry 21). -/
def Opcode.ofCode (n : Nat) : Option Opcode :=
  if n = 1 then some .add
  else if n = 2 then some .mul
  else if n = 3 then some .inp
  else if n = 4 then some .out
  else if n = 5 then some .jt
  else if n = 6 then some .jf
  else if n = 7 then some .lt
  else if n = 8 then some .eq
  else if n = 9 then some .arb
  else if n = 99 then some .hlt
  else none

/-- R96: the length of an instruction in words, fixed by its opcode. -/
def Opcode.length : Opcode → Nat
  | .add => 4 | .mul => 4 | .inp => 2 | .out => 2 | .jt => 3
  | .jf => 3 | .lt => 4 | .eq => 4 | .arb => 2 | .hlt => 1

/-- R100: the mnemonics of the opcode table. -/
def Opcode.mnemonic : Opcode → String
  | .add => "ADD" | .mul => "MUL" | .inp => "IN" | .out => "OUT" | .jt => "JT"
  | .jf => "JF" | .lt => "LT" | .eq => "EQ" | .arb => "ARB" | .hlt => "HLT"

/-- R92: the digit of a mode. -/
def Mode.digit : Mode → Nat
  | .position => 0
  | .immediate => 1
  | .relative => 2

/-- R92, R93: the mode of a digit, none for 3 to 9. -/
def Mode.ofDigit (n : Nat) : Option Mode :=
  if n = 0 then some .position
  else if n = 1 then some .immediate
  else if n = 2 then some .relative
  else none

/-- What the instruction word alone says: the opcode and the three mode digits (R95). -/
structure Head where
  op : Opcode
  a : Mode
  b : Mode
  c : Mode
deriving DecidableEq, Repr

/-- R95: `decode(w)`. The opcode check comes before the mode check, and all three mode digits are checked whether or not
the opcode uses them (R93). Digits 5 and above are not read (R94). -/
def decodeHead (w : Word) : Except DecodeError Head :=
  if w.toInt < 0 then .error .invalidOpcode
  else
    match Opcode.ofCode (w.toNat % 100) with
    | none => .error .invalidOpcode
    | some op =>
      match Mode.ofDigit (digit 2 w), Mode.ofDigit (digit 3 w), Mode.ofDigit (digit 4 w) with
      | some a, some b, some c => .ok { op := op, a := a, b := b, c := c }
      | _, _, _ => .error .invalidMode

/-- R97, R98: the instruction of a head and its raw operand words. Mode digits and raw words beyond the opcode's operands
have no effect. -/
def assemble (h : Head) (r0 r1 r2 : Word) : Instr :=
  match h.op with
  | .add => .add { mode := h.a, raw := r0 } { mode := h.b, raw := r1 } { mode := h.c, raw := r2 }
  | .mul => .mul { mode := h.a, raw := r0 } { mode := h.b, raw := r1 } { mode := h.c, raw := r2 }
  | .inp => .inp { mode := h.a, raw := r0 }
  | .out => .out { mode := h.a, raw := r0 }
  | .jt => .jt { mode := h.a, raw := r0 } { mode := h.b, raw := r1 }
  | .jf => .jf { mode := h.a, raw := r0 } { mode := h.b, raw := r1 }
  | .lt => .lt { mode := h.a, raw := r0 } { mode := h.b, raw := r1 } { mode := h.c, raw := r2 }
  | .eq => .eq { mode := h.a, raw := r0 } { mode := h.b, raw := r1 } { mode := h.c, raw := r2 }
  | .arb => .arb { mode := h.a, raw := r0 }
  | .hlt => .hlt

/-- R90, R103: decode the instruction at the front of a sequence of words; the rest of the sequence comes with it. -/
def decode : List Word → Except DecodeError (Instr × List Word)
  | [] => .error .truncated
  | w :: ws =>
    match decodeHead w with
    | .error e => .error e
    | .ok h =>
      if ws.length < h.op.length - 1 then .error .truncated
      else .ok (assemble h (ws.getD 0 0) (ws.getD 1 0) (ws.getD 2 0), ws.drop (h.op.length - 1))

/-! ## The encoder -/

/-- The opcode of an instruction. -/
def Instr.opcode : Instr → Opcode
  | .add _ _ _ => .add
  | .mul _ _ _ => .mul
  | .inp _ => .inp
  | .out _ => .out
  | .jt _ _ => .jt
  | .jf _ _ => .jf
  | .lt _ _ _ => .lt
  | .eq _ _ _ => .eq
  | .arb _ => .arb
  | .hlt => .hlt

/-- R96: the length of an instruction in words. -/
def Instr.length (i : Instr) : Nat := i.opcode.length

/-- The operands of an instruction, in operand order. -/
def Instr.operands : Instr → List Operand
  | .add a b dst => [a, b, dst]
  | .mul a b dst => [a, b, dst]
  | .inp dst => [dst]
  | .out a => [a]
  | .jt a b => [a, b]
  | .jf a b => [a, b]
  | .lt a b dst => [a, b, dst]
  | .eq a b dst => [a, b, dst]
  | .arb a => [a]
  | .hlt => []

/-- R102: the digits `C B A` above the opcode, as a number: `A + 10 * B + 100 * C`, 0 where there is no operand. -/
def modeDigits : List Operand → Nat
  | [] => 0
  | o :: os => o.mode.digit + 10 * modeDigits os

/-- R102: the canonical instruction word, `OP + 100*A + 1000*B + 10000*C`, as a number. -/
def Instr.headValue (i : Instr) : Nat := i.opcode.code + 100 * modeDigits i.operands

/-- R90, R102: the canonical encoding of an instruction, its instruction word and then its raw operand words. -/
def encode (i : Instr) : List Word :=
  BitVec.ofNat 64 i.headValue :: i.operands.map (·.raw)

/-! ## Words of the opcode table -/

/-- The longest instruction, in words (R103). -/
def maxLength : Nat := 4

/-- The words of an instruction whose bits are those of `w` below `nbits` and 0 above: word `k` is bits
`64*k .. 64*k + 63` (log entry 12). -/
def tableWords (nbits w : Nat) : List Word :=
  (List.range maxLength).map fun k => BitVec.ofNat 64 (w % 2 ^ nbits / 2 ^ (64 * k))

/-- The instruction the decoder reads from those words. -/
def decodeTableWord (nbits w : Nat) : Option Instr :=
  match decode (tableWords nbits w) with
  | .ok (i, _) => some i
  | .error _ => none

end Sys2Proof
end

