-- ==== Sys2Proof/Config.lean ====
section
/-! DEFINITION. The implementation parameters the spec leaves open (spec/00_scope.md, R9). NET_N, the fifth, is the
number of cores a state holds (log entry 4). -/

namespace Sys2Proof

/-- The OPEN parameters of R9. `none` stands for unbounded. -/
structure Params where
  /-- MEM_LIMIT: addresses `0 .. MEM_LIMIT - 1` can be written (D8). -/
  memLimit : Nat
  /-- IN_CAP: the most entries one input queue holds (D9). -/
  inCap : Option Nat
  /-- OUT_CAP: the most entries one output log holds (D9). -/
  outCap : Option Nat
  /-- ROUND_CAP: the most scheduler rounds before the network fails (D20). -/
  roundCap : Option Nat
deriving DecidableEq, Repr

/-- The source-faithful values of R9. -/
def Params.sourceFaithful : Params :=
  { memLimit := 9223372036854775808, inCap := none, outCap := none, roundCap := none }

/-- A capacity of R9 is at least 1, or unbounded. -/
def capAtLeastOne : Option Nat → Bool
  | none => true
  | some c => decide (1 ≤ c)

/-- The constraints of R9 on the parameters. -/
def Params.wf (p : Params) : Bool :=
  decide (1 ≤ p.memLimit) && decide (p.memLimit ≤ 9223372036854775808) &&
    capAtLeastOne p.inCap && capAtLeastOne p.outCap && capAtLeastOne p.roundCap

/-- Does a sequence of `n` entries stay within a capacity? -/
def withinCap (cap : Option Nat) (n : Nat) : Bool :=
  match cap with
  | none => true
  | some c => decide (n ≤ c)

end Sys2Proof
end

