-- ==== Sys2Proof/Machine/State.lean ====
section
/-! DEFINITION. Every piece of state the spec gives the machine (spec/10_state.md): one core's state (R29), the
feedback network's cores and scheduler (R47), and the open parameters (R9). State is plain data. -/

namespace Sys2Proof.Machine

/-! ## Memory -/

/-- One listed cell of memory. The addressable unit is the 64-bit word (R61, R64; log entry 1). -/
abbrev Cell := Nat × Word

/-- R31: the total map `MEM`, held as the list of its non-zero cells. An unlisted address reads as 0 (R62). -/
abbrev Memory := List Cell

/-- The one canonical form: addresses strictly rising, and no listed cell holds what an unlisted address reads as. -/
def Memory.wf : Memory → Bool
  | [] => true
  | (a, v) :: m => decide (v ≠ 0) && m.all (fun c => decide (a < c.1)) && Memory.wf m

/-! ## Status and faults -/

/-- R37: the run status. -/
inductive Status where
  | running
  | waitingForInput
  | halted
  | faulted
deriving DecidableEq, Repr

/-- R301: the eight fault reasons, in the order of their codes. -/
inductive FaultReason where
  /-- 1: the instruction word is negative or its opcode is not in the set -/
  | invalidOpcode
  /-- 2: a mode digit is 3 to 9 -/
  | invalidMode
  /-- 3: an address below 0 -/
  | negativeAddress
  /-- 4: an address or a next IP past the top of the range -/
  | addressOverflow
  /-- 5: Immediate mode on a write operand -/
  | invalidWriteMode
  /-- 6: a write at or above MEM_LIMIT -/
  | capacityExceeded
  /-- 7: OUT into a full log -/
  | queueOverflow
  /-- 8: `takeOutput` with nothing buffered -/
  | noOutputAvailable
deriving DecidableEq, Repr

/-- R39: the FAULT record. At reset `valid` is false and every other field is none (R48). `addr` follows the column of R301: it
holds the write address after CapacityExceeded too, which the field table of R39 does not name (DEDUCED; log entry 20). -/
structure FaultRecord where
  valid : Bool
  reason : Option FaultReason
  ip : Option Word
  addr : Option Int
  operand : Option (Fin 3)
deriving DecidableEq, Repr

/-- R48: the FAULT record of a core that has not faulted. -/
def FaultRecord.none : FaultRecord :=
  { valid := false, reason := .none, ip := .none, addr := .none, operand := .none }

/-- The arguments of `raise Fault(reason, addr)` (R302), with the index of the operand being resolved, if any. -/
structure FaultCause where
  reason : FaultReason
  addr : Option Int
  operand : Option (Fin 3)
deriving DecidableEq, Repr

/-! ## One core -/

/-- R29: exactly the state of one core instance. -/
structure CoreState where
  /-- MEM (R31) -/
  mem : Memory
  /-- IP (R32) -/
  ip : Word
  /-- RB (R35) -/
  rb : Word
  /-- INQ, oldest first (R40) -/
  inq : List Word
  /-- OUTLOG, oldest first (R41) -/
  outLog : List Word
  /-- OUTCUR (R41) -/
  outCur : Nat
  /-- STATUS (R37) -/
  status : Status
  /-- FAULT (R39) -/
  fault : FaultRecord
  /-- BUSY (R42) -/
  busy : Bool
deriving DecidableEq, Repr

/-! ## The network -/

/-- R354: why a network failed. -/
inductive NetFailure where
  | coreFault (core : Nat) (fault : FaultRecord)
  | roundCapExceeded
  | queueOverflow
  | noAnswer
deriving DecidableEq, Repr

/-- R47: NSTATUS. -/
inductive NetStatus where
  | scheduling
  | done (answer : Word)
  | failed (reason : NetFailure)
deriving DecidableEq, Repr

/-! ## The machine -/

/-- The whole block. The core in front of the engine stands in the state's own fields; the network's other cores stand in
`before` and `after`, in index order, so that `C[0 .. NET_N-1]` is `before`, that core, `after` (log entry 4). A core that is in no
network is a block of one core. -/
structure State extends CoreState where
  /-- the open parameters of R9, which no step changes (log entry 2) -/
  params : Params
  /-- the cores of lower index than the one in front of the engine -/
  before : List CoreState
  /-- the cores of higher index -/
  after : List CoreState
  /-- CUR (R47) -/
  cur : Nat
  /-- RUNS (R47) -/
  runs : Nat
  /-- NSTATUS (R47) -/
  nstatus : NetStatus
  /-- true while `schedule()` is in progress: the model's own field (log entry 7) -/
  scheduling : Bool
deriving DecidableEq, Repr

/-- A stop of the machine that is no fault of the spec. The spec's faults are recorded in FAULT and reach a next state
(R302; log entry 3). -/
inductive Fault where
  /-- Raised by the scheduler's step, and by nothing else, when CUR names no core. R47 keeps CUR in `0 .. NET_N-1`, so no state
  of the hardware raises it, and no run of the model reaches it. Safe: the model stops (log entry 11). -/
  | noCurrentCore
deriving DecidableEq, Repr

/-- A refusal of an instruction. -/
inductive Refusal where
  /-- Raised by an arm of `exec` for an instruction that has no meaning yet. No arm raises it: every instruction has its
  meaning. Safe. -/
  | notModelled (mnemonic : String)
deriving DecidableEq, Repr

/-- What one step, or one instruction, answers. -/
abbrev Result := Host.Outcome State Fault Refusal

/-- R48: a core after construction, with the memory and inputs given. -/
def CoreState.constructed (mem : Memory) (inputs : List Word) : CoreState :=
  { mem := mem, ip := 0, rb := 0, inq := inputs, outLog := [], outCur := 0, status := .running,
    fault := FaultRecord.none, busy := false }

/-- R48, R400: the machine right after construction with an empty program and no inputs: one core, and the parameters
at their source-faithful values (log entries 2 and 4). -/
def State.reset : State :=
  { toCoreState := CoreState.constructed [] [], params := Params.sourceFaithful, before := [], after := [],
    cur := 0, runs := 0, nstatus := .scheduling, scheduling := false }

end Sys2Proof.Machine
end

