-- ==== Sys2Proof/Machine/Ops.lean ====
section
/-! DEFINITION. The named operations over memory and registers, and the fault action, which is the machine's whole
trap entry (spec/20_memory.md, R62, R63; spec/60_exceptions.md, R301, R302, R311; spec/40_execution_cycle.md, R134). There is no
trap return beside it: the spec gives none (R312). -/

namespace Sys2Proof.Machine

/-! ## Codes -/

/-- R37: the numeric code of a status. -/
def Status.code : Status → Nat
  | .running => 0
  | .waitingForInput => 1
  | .halted => 2
  | .faulted => 3

/-- R301: the numeric code of a fault reason. -/
def FaultReason.code : FaultReason → Nat
  | .invalidOpcode => 1
  | .invalidMode => 2
  | .negativeAddress => 3
  | .addressOverflow => 4
  | .invalidWriteMode => 5
  | .capacityExceeded => 6
  | .queueOverflow => 7
  | .noOutputAvailable => 8

/-! ## Memory as a map -/

/-- R31: `MEM[a]`. A cell never written reads as 0. -/
def Memory.read : Memory → Nat → Word
  | [], _ => 0
  | (k, w) :: m, a => if k = a then w else Memory.read m a

/-- `MEM[a] <- v`, in canonical form: writing 0, what an unlisted address reads as, takes the cell out of the list. -/
def Memory.write : Memory → Nat → Word → Memory
  | [], a, v => if v = 0 then [] else [(a, v)]
  | (k, w) :: m, a, v =>
    if a < k then
      if v = 0 then (k, w) :: m else (a, v) :: (k, w) :: m
    else if a = k then
      if v = 0 then m else (k, v) :: m
    else (k, w) :: Memory.write m a v

/-- R400: memory holding a sequence of words from address `a` on, 0 elsewhere. -/
def Memory.ofWords : Nat → List Word → Memory
  | _, [] => []
  | a, v :: vs => if v = 0 then Memory.ofWords (a + 1) vs else (a, v) :: Memory.ofWords (a + 1) vs

/-- Memory with a sequence of words stored from address `a` on, the rest as it was. -/
def Memory.writeWords (m : Memory) : Nat → List Word → Memory
  | _, [] => m
  | a, v :: vs => Memory.writeWords (m.write a v) (a + 1) vs

/-! ## Register and queue updates -/

/-- `IP <- v` (R16). -/
def State.setIp (s : State) (v : Word) : State := { s with ip := v }

/-- `RB <- v` (R14). -/
def State.setRb (s : State) (v : Word) : State := { s with rb := v }

/-- `STATUS <- v` (R16). -/
def State.setStatus (s : State) (v : Status) : State := { s with status := v }

/-- `BUSY <- v` (R42). -/
def State.setBusy (s : State) (v : Bool) : State := { s with busy := v }

/-- `INQ <- q` (R14). -/
def State.setInq (s : State) (q : List Word) : State := { s with inq := q }

/-- `OUTLOG <- OUTLOG ++ [v]` (R185). -/
def State.appendOut (s : State) (v : Word) : State := { s with outLog := s.outLog ++ [v] }

/-- `MEM[a] <- v`, the effect of `MemWrite` once its checks have passed (R63). -/
def State.storeWord (s : State) (a : Nat) (v : Word) : State := { s with mem := s.mem.write a v }

/-! ## The memory primitives -/

/-- R62: `MemRead(a)`. It has no side effect. -/
def State.memRead (s : State) (a : Int) : Except FaultCause Word :=
  if a < 0 then .error { reason := .negativeAddress, addr := some a, operand := none }
  else if addrMax < a then .error { reason := .addressOverflow, addr := some a, operand := none }
  else .ok (s.mem.read a.toNat)

/-- R63: `MemWrite(a, v)`. An instruction's address has passed these checks already (R111), so an instruction uses the
effect `State.storeWord` alone (Laws: `memWrite_of_resolveWrite`). CapacityExceeded carries the address (R63; log entry 20). -/
def State.memWrite (s : State) (a : Int) (v : Word) : Except FaultCause State :=
  if a < 0 then .error { reason := .negativeAddress, addr := some a, operand := none }
  else if (s.params.memLimit : Int) ≤ a then
    .error { reason := .capacityExceeded, addr := some a, operand := none }
  else .ok (s.storeWord a.toNat v)

/-! ## The fault action -/

/-- R302: `raise Fault(reason, addr)` on one core. The first fault is kept; STATUS becomes Faulted; nothing else changes. -/
def CoreState.raise (k : CoreState) (c : FaultCause) : CoreState :=
  { k with
    fault :=
      if k.fault.valid then k.fault
      else { valid := true, reason := some c.reason, ip := some k.ip, addr := c.addr, operand := c.operand }
    status := .faulted }

/-- R302, R311: the fault action on the core in front of the engine. -/
def State.raise (s : State) (c : FaultCause) : State :=
  { s with toCoreState := s.toCoreState.raise c }

/-- The end of an instruction: its effect, or the fault action where one of its checks failed (R136, R137). -/
def State.conclude (s : State) (r : Except FaultCause State) : Result :=
  match r with
  | .ok t => .next t
  | .error c => .next (s.raise c)

/-! ## The next instruction -/

/-- R134: `seqNext(L)`, the sequential next IP, which never wraps. -/
def State.seqNext (s : State) (len : Nat) : Except FaultCause Word :=
  let n := s.ip.toInt + len
  if int64Max < n then .error { reason := .addressOverflow, addr := some n, operand := none }
  else .ok (wrap64 n)

end Sys2Proof.Machine
end

