-- ==== Sys2Proof/Machine/Operands.lean ====
section
/-! DEFINITION. The parameter resolver (spec/30_encoding.md, R110 to R112). -/

namespace Sys2Proof.Machine

/-- R110, R111: the effective address of an operand, an exact integer. An Immediate operand has none. -/
def State.effAddr (s : State) (o : Operand) : Option Int :=
  match o.mode with
  | .position => some o.raw.toInt
  | .immediate => none
  | .relative => some (s.rb.toInt + o.raw.toInt)

/-- R110: `resolveRead(k)`, the value of read operand `k`. -/
def State.resolveRead (s : State) (k : Fin 3) (o : Operand) : Except FaultCause Word :=
  match s.effAddr o with
  | none => .ok o.raw
  | some a =>
    if a < 0 then .error { reason := .negativeAddress, addr := some a, operand := some k }
    else if addrMax < a then .error { reason := .addressOverflow, addr := some a, operand := some k }
    else .ok (s.mem.read a.toNat)

/-- R111: `resolveWrite(k)`, the address of write operand `k`. It only computes the address. CapacityExceeded carries the address
(R111, R301; log entry 20). -/
def State.resolveWrite (s : State) (k : Fin 3) (o : Operand) : Except FaultCause Nat :=
  match s.effAddr o with
  | none => .error { reason := .invalidWriteMode, addr := none, operand := some k }
  | some a =>
    if a < 0 then .error { reason := .negativeAddress, addr := some a, operand := some k }
    else if addrMax < a then .error { reason := .addressOverflow, addr := some a, operand := some k }
    else if (s.params.memLimit : Int) ≤ a then
      .error { reason := .capacityExceeded, addr := some a, operand := some k }
    else .ok a.toNat

end Sys2Proof.Machine
end

