-- ==== Sys2Proof/Machine/Arith.lean ====
section
/-! DEFINITION. The instructions of format RRW share one shape; ADD and MUL are here (spec/41_arithmetic.md). -/

namespace Sys2Proof.Machine

/-- Format RRW (R96): resolve in operand order, take the next IP, then write `f` of the two values (R130, R134, R136). -/
def effectRRW (f : Word → Word → Word) (a b dst : Operand) (s : State) : Except FaultCause State := do
  let x ← s.resolveRead 0 a
  let y ← s.resolveRead 1 b
  let d ← s.resolveWrite 2 dst
  let n ← s.seqNext 4
  pure ((s.storeWord d (f x y)).setIp n)

/-- R158, R160: the exact sum, wrapped. -/
def addWords (x y : Word) : Word := wrap64 (x.toInt + y.toInt)

/-- R158, R165: the low 64 bits of the exact signed product. -/
def mulWords (x y : Word) : Word := wrap64 (x.toInt * y.toInt)

/-- R160: ADD. -/
def execAdd (a b dst : Operand) (s : State) : Result := s.conclude (effectRRW addWords a b dst s)

/-- R165: MUL. -/
def execMul (a b dst : Operand) (s : State) : Result := s.conclude (effectRRW mulWords a b dst s)

end Sys2Proof.Machine
end

