-- ==== Sys2Proof/Machine/Flags.lean ====
section
/-! DEFINITION. The conditions the instructions compute. The core has no flags (spec/10_state.md, R36): a comparison's result
is a word (spec/44_compare.md, R220, R225), and a jump tests a word against zero (spec/43_jumps.md, R200, R205). -/

namespace Sys2Proof.Machine

/-- R220: 1 if `x < y` as signed words, else 0. -/
def ltWord (x y : Word) : Word := if x.toInt < y.toInt then 1 else 0

/-- R225: 1 if the full words are equal, else 0. -/
def eqWord (x y : Word) : Word := if x = y then 1 else 0

/-- R200: the condition of JT, any non-zero word. -/
def nonZero (x : Word) : Bool := decide (x ≠ 0)

/-- R205: the condition of JF, the word 0 only. -/
def isZero (x : Word) : Bool := decide (x = 0)

end Sys2Proof.Machine
end

