-- ==== Sys2Proof/Machine/Compare.lean ====
section
/-! DEFINITION. The comparisons, whose result is a word in memory (spec/44_compare.md). -/

namespace Sys2Proof.Machine

/-- R220: LT. -/
def execLt (a b dst : Operand) (s : State) : Result := s.conclude (effectRRW ltWord a b dst s)

/-- R225: EQ. -/
def execEq (a b dst : Operand) (s : State) : Result := s.conclude (effectRRW eqWord a b dst s)

end Sys2Proof.Machine
end

