-- ==== Sys2Proof/Machine/Halt.lean ====
section
/-! DEFINITION. HLT (spec/46_halt.md). -/

namespace Sys2Proof.Machine

/-- R250: HLT. IP stays at the HLT word. -/
def execHlt (s : State) : Result := .next (s.setStatus .halted)

end Sys2Proof.Machine
end

