-- ==== Sys2Proof/Machine/InOut.lean ====
section
/-! DEFINITION. IN and OUT, the core's side of the I/O queue arbiter (spec/42_io.md). -/

namespace Sys2Proof.Machine

/-- R180: the execute arm of IN. Every check comes before the test for an empty queue (R304, C10). -/
def effectIn (dst : Operand) (s : State) : Except FaultCause State := do
  let d ← s.resolveWrite 0 dst
  let n ← s.seqNext 2
  match s.inq with
  | [] => pure (s.setStatus .waitingForInput)
  | x :: xs => pure (((s.setInq xs).storeWord d x).setIp n)

/-- R185: `OUT_CAP` is bounded and the log holds that many words. -/
def State.outFull (s : State) : Bool :=
  match s.params.outCap with
  | none => false
  | some c => decide (s.outLog.length = c)

/-- R185: the execute arm of OUT. -/
def effectOut (a : Operand) (s : State) : Except FaultCause State := do
  let x ← s.resolveRead 0 a
  let n ← s.seqNext 2
  if s.outFull then .error { reason := .queueOverflow, addr := none, operand := none }
  else pure ((s.appendOut x).setIp n)

/-- R180: IN. Blocking is no fault: only STATUS changes (R181). -/
def execIn (dst : Operand) (s : State) : Result := s.conclude (effectIn dst s)

/-- R185: OUT. -/
def execOut (a : Operand) (s : State) : Result := s.conclude (effectOut a s)

end Sys2Proof.Machine
end

