-- ==== Sys2Proof/Machine/Jumps.lean ====
section
/-! DEFINITION. The conditional jumps, the only control transfers (spec/43_jumps.md). -/

namespace Sys2Proof.Machine

/-- Format RR (R96): resolve both operands, then take the target as it is (R199), or the sequential next IP, whose check
belongs to the path not taken only (R134). -/
def effectJump (taken : Word → Bool) (a b : Operand) (s : State) : Except FaultCause State := do
  let x ← s.resolveRead 0 a
  let target ← s.resolveRead 1 b
  if taken x then pure (s.setIp target)
  else do
    let n ← s.seqNext 3
    pure (s.setIp n)

/-- R200: JT. -/
def execJt (a b : Operand) (s : State) : Result := s.conclude (effectJump nonZero a b s)

/-- R205: JF. -/
def execJf (a b : Operand) (s : State) : Result := s.conclude (effectJump isZero a b s)

end Sys2Proof.Machine
end

