-- ==== Sys2Proof/Machine/RelativeBase.lean ====
section
/-! DEFINITION. ARB, the only writer of RB (spec/45_relative_base.md). -/

namespace Sys2Proof.Machine

/-- R240: the execute arm of ARB. The operand is resolved with the old RB (R241); the new RB is not checked. -/
def effectArb (a : Operand) (s : State) : Except FaultCause State := do
  let x ← s.resolveRead 0 a
  let n ← s.seqNext 2
  pure ((s.setRb (wrap64 (s.rb.toInt + x.toInt))).setIp n)

/-- R240: ARB. -/
def execArb (a : Operand) (s : State) : Result := s.conclude (effectArb a s)

end Sys2Proof.Machine
end

