-- ==== Sys2Proof/Machine/Engine.lean ====
section
/-! DEFINITION. The step every instruction shares (spec/40_execution_cycle.md, R130 to R136): fetch, decode, the range
check, the operand fetch, and then the instruction's own meaning, which resolves its operands and acts. -/

namespace Sys2Proof.Machine

/-- R95, R131, R132: a decoder's error as a fault. The address is none. -/
def decodeCause : DecodeError → FaultCause
  | .invalidOpcode => { reason := .invalidOpcode, addr := none, operand := none }
  | .invalidMode => { reason := .invalidMode, addr := none, operand := none }
  | .truncated => { reason := .invalidOpcode, addr := none, operand := none }

/-- R95: `decode(w)`, with its fault. -/
def decodeWord (w : Word) : Except FaultCause Head :=
  match decodeHead w with
  | .ok h => .ok h
  | .error e => .error (decodeCause e)

/-- R98, R133: raw operand `k` of an instruction of `len` words at IP, read only where the instruction has it. -/
def State.rawOperand (s : State) (len k : Nat) : Word :=
  if k + 1 < len then s.mem.read (s.ip.toInt + 1 + k).toNat else 0

/-- R130 to R134: fetch, decode, the operand range check, and the operand fetch. -/
def State.fetch (s : State) : Except FaultCause Instr := do
  let w ← s.memRead s.ip.toInt
  let h ← decodeWord w
  let len := h.op.length
  let last := s.ip.toInt + len - 1
  if addrMax < last then .error { reason := .addressOverflow, addr := some last, operand := none }
  else pure (assemble h (s.rawOperand len 0) (s.rawOperand len 1) (s.rawOperand len 2))

/-- R130: `step()`, one instruction of the core in front of the engine. -/
def State.engineStep (s : State) : Result :=
  match s.fetch with
  | .ok i => exec i s
  | .error c => .next (s.raise c)

/-- The state in which the next step of the machine runs the instruction given as words: a run is in progress (R130,
R140), and the words stand at IP, which moves to 0 only where the words would not fit (log entry 8). -/
def State.withFetchWords (s : State) (ws : List Word) : State :=
  let at0 : Bool := decide (s.ip.toInt < 0) || decide (addrMax < s.ip.toInt + ws.length - 1)
  let base : Nat := if at0 then 0 else s.ip.toNat
  { s with
    ip := if at0 then 0 else s.ip
    mem := s.mem.writeWords base ws
    status := .running
    busy := true }

end Sys2Proof.Machine
end

