-- ==== Sys2Proof/Machine/HostCmd.lean ====
section
/-! DEFINITION. The host command interface and the I/O queue arbiter (spec/60_exceptions.md, R330 to R338) and construction
(spec/70_reset_and_hazards.md, R400). Each command is one transaction on one core. -/

namespace Sys2Proof.Machine

/-! ## Commands and replies -/

/-- R330: the commands to a core, but for construction (`CoreState.construct`). -/
inductive HostCmd where
  | run
  | feed (values : List Word)
  | takeOutput
  | outputs
  | memoryAt (addr : Word)
  | drain
deriving DecidableEq, Repr

/-- R332: the rejections that change no state. -/
inductive HostRefusal where
  | busy
  | programTooLong
  | inputQueueFull
  /-- the command names a core the block does not have: the model's own (log entry 10) -/
  | noSuchCore
deriving DecidableEq, Repr

/-- R330: what the host gets back. -/
inductive HostReply where
  | ok
  | word (w : Word)
  | words (ws : List Word)
  /-- `run()` returned without a step (R140) -/
  | returned (status : Status) (fault : FaultRecord)
  /-- a `run()` or `schedule()` is in progress, and returns when the machine's steps end it -/
  | started
  /-- the command raised this fault, and returns it (R311, R330), whatever fault the core's FAULT record keeps (R302) -/
  | faulted (cause : FaultCause)
  | refused (r : HostRefusal)
deriving DecidableEq, Repr

/-! ## Construction -/

/-- R400: `Machine(program, initialInputs)`. -/
def CoreState.construct (p : Params) (program inputs : List Word) : Except HostRefusal CoreState :=
  if p.memLimit < program.length then .error .programTooLong
  else if withinCap p.inCap inputs.length then
    .ok (CoreState.constructed (Memory.ofWords 0 program) inputs)
  else .error .inputQueueFull

/-! ## The commands on one core -/

/-- R333: `feed(values)`, all of them or none. -/
def CoreState.feed (k : CoreState) (p : Params) (vs : List Word) : Except HostRefusal CoreState :=
  if withinCap p.inCap (k.inq.length + vs.length) then .ok { k with inq := k.inq ++ vs }
  else .error .inputQueueFull

/-- R41: the outputs not yet taken, `OUTLOG[OUTCUR ..]`. -/
def CoreState.buffered (k : CoreState) : List Word := k.outLog.drop k.outCur

/-- R337: the core after `drain()`. -/
def CoreState.drained (k : CoreState) : CoreState := { k with outCur := k.outLog.length }

/-- R333: `feed` as a command. -/
def CoreState.hostFeed (k : CoreState) (p : Params) (vs : List Word) : HostReply × CoreState :=
  match k.feed p vs with
  | .ok k' => (.ok, k')
  | .error r => (.refused r, k)

/-- R311: a host command's fault, raised on the core and returned by the command. -/
def CoreState.fail (k : CoreState) (c : FaultCause) : HostReply × CoreState := (.faulted c, k.raise c)

/-- R334: `takeOutput()`. An empty buffer faults the core, whatever its STATUS. -/
def CoreState.takeOutput (k : CoreState) : HostReply × CoreState :=
  match k.outLog[k.outCur]? with
  | some x => (.word x, { k with outCur := k.outCur + 1 })
  | none => k.fail { reason := .noOutputAvailable, addr := none, operand := none }

/-- R335: `outputs()`. -/
def CoreState.outputs (k : CoreState) : HostReply × CoreState := (.words k.outLog, k)

/-- R336: `memoryAt(addr)`. A negative address faults the core. -/
def CoreState.memoryAt (k : CoreState) (a : Word) : HostReply × CoreState :=
  if a.toInt < 0 then k.fail { reason := .negativeAddress, addr := some a.toInt, operand := none }
  else (.word (k.mem.read a.toNat), k)

/-- R337: `drain()`. It never faults. -/
def CoreState.drain (k : CoreState) : HostReply × CoreState := (.words k.buffered, k.drained)

/-! ## The cores of the block -/

/-- R47: `C[0 .. NET_N-1]`. -/
def State.cores (s : State) : List CoreState := s.before ++ s.toCoreState :: s.after

/-- R9: NET_N. -/
def State.netN (s : State) : Nat := s.before.length + 1 + s.after.length

/-- R47: `C[i]`, none where the block has no such core. -/
def State.coreAt (s : State) (i : Nat) : Option CoreState := s.cores[i]?

/-- `C[i] <- k`. -/
def State.setCore (s : State) (i : Nat) (k : CoreState) : State :=
  if i < s.before.length then { s with before := s.before.set i k }
  else if i = s.before.length then { s with toCoreState := k }
  else { s with after := s.after.set (i - s.before.length - 1) k }

/-- The same cores with core `i` in front of the engine, none where the block has no such core. -/
def State.focus (s : State) (i : Nat) : Option State :=
  match s.cores[i]? with
  | none => none
  | some k => some { s with toCoreState := k, before := s.cores.take i, after := s.cores.drop (i + 1) }

/-- R331: a command other than `run` on core `i`, whose state is `k`: refused with Busy while the core's BUSY is true, and
otherwise one indivisible transaction. -/
def State.serve (s : State) (i : Nat) (k : CoreState)
    (f : Params → CoreState → HostReply × CoreState) : HostReply × State :=
  if k.busy then (.refused .busy, s)
  else ((f s.params k).1, s.setCore i (f s.params k).2)

end Sys2Proof.Machine
end

