-- ==== Sys2Proof/Machine/Network.lean ====
section
/-! DEFINITION. The feedback-network scheduler (spec/60_exceptions.md, R350 to R357) and the run loop's two ends
(spec/40_execution_cycle.md, R140). -/

namespace Sys2Proof.Machine

/-! ## Construction -/

/-- R350: one core for each sequence of initial inputs, each with its own copy of the program (R401). -/
def constructCores (p : Params) (program : List Word) : List (List Word) → Except HostRefusal (List CoreState)
  | [] => .ok []
  | inputs :: rest => do
    let k ← CoreState.construct p program inputs
    let ks ← constructCores p program rest
    pure (k :: ks)

/-- R350: `Network(program, inits)` with `NET_N = 1 + rest.length` cores, each with its own copy of the program. It is
refused if the construction of any core is refused. -/
def State.network (p : Params) (program : List Word) (init : List Word) (rest : List (List Word)) :
    Except HostRefusal State := do
  let k ← CoreState.construct p program init
  let ks ← constructCores p program rest
  pure { toCoreState := k, params := p, before := [], after := ks, cur := 0, runs := 0,
         nstatus := .scheduling, scheduling := false }

/-- R400: `Machine(program, initialInputs)` as a block of one core. -/
def State.construct (p : Params) (program inputs : List Word) : Except HostRefusal State :=
  State.network p program inputs []

/-- R361: the inputs of the amplifier example, by its convention (from general knowledge, not in source; log entry 18). -/
def phaseInputs (phase : Word) (phases : List Word) : List Word × List (List Word) :=
  ([phase, 0], phases.map fun p => [p])

/-! ## Scheduling -/

/-- R352: `C[j].feed(xs)` as the scheduler issues it; a refusal fails the network. -/
def State.receive (s : State) (j : Nat) (xs : List Word) : State :=
  match s.coreAt j with
  | none => s
  | some k =>
    match k.feed s.params xs with
    | .ok k' => s.setCore j k'
    | .error _ => { s with nstatus := .failed .queueOverflow }

/-- R352: `transfer(i)` moves core `i`'s buffered outputs into the input queue of core `(i+1) mod NET_N`. -/
def State.transfer (s : State) (i : Nat) : State :=
  match s.coreAt i with
  | none => s
  | some k => (s.setCore i k.drained).receive ((i + 1) % s.netN) k.buffered

/-- R353: `answer()`, the last word core `NET_N - 1` has produced. -/
def State.answer (s : State) : NetStatus :=
  match s.coreAt (s.netN - 1) with
  | none => .failed .noAnswer
  | some k =>
    match k.outLog.getLast? with
    | some x => .done x
    | none => .failed .noAnswer

/-- R351: every core has halted. -/
def State.allHalted (s : State) : Bool := s.cores.all fun k => decide (k.status = .halted)

/-- R351: the scheduler's loop body after `C[CUR].run()` has returned. A core fault ends it at once; otherwise the outputs
are transferred, the network is done where every core has halted, and CUR moves on. -/
def State.afterRun (s : State) : State :=
  if s.status = .faulted then
    { s with runs := s.runs + 1, nstatus := .failed (.coreFault s.cur s.fault) }
  else
    let t := s.transfer s.cur
    { t with
      runs := s.runs + 1
      nstatus := if t.nstatus = .scheduling ∧ t.allHalted = true then t.answer else t.nstatus
      cur := (s.cur + 1) % s.netN }

/-- R140: `run()` up to its first step: the core leaves Halted and Faulted as they are, and any other status becomes
Running with BUSY true. -/
def State.runBegin (s : State) : State :=
  if s.status = .halted ∨ s.status = .faulted then s else (s.setStatus .running).setBusy true

/-- R140: `run()` from its last step on: BUSY becomes false, and control goes back to the host, or to the scheduler where
it is the scheduler's run (R351). -/
def State.runReturn (s : State) : State :=
  let t := s.setBusy false
  if s.scheduling then t.afterRun else t

/-- R351: ROUND_CAP is bounded and the scheduler has issued that many rounds of runs. -/
def State.capReached (s : State) : Bool :=
  match s.params.roundCap with
  | none => false
  | some c => decide (s.runs = c * s.netN)

/-- R351: the scheduler's loop, up to the start of the next run: `schedule()` returns when NSTATUS is not Scheduling, and
fails the network at the cap; else it runs core CUR, whose run returns at once where the core is Halted or Faulted. -/
def State.schedStep (s : State) : Result :=
  if s.nstatus ≠ .scheduling then .next { s with scheduling := false }
  else if s.capReached then .next { s with nstatus := .failed .roundCapExceeded }
  else
    match s.focus s.cur with
    | none => .fault .noCurrentCore
    | some t =>
      if t.status = .halted ∨ t.status = .faulted then .next t.afterRun else .next t.runBegin

/-- `schedule()` as a command: it begins here and goes on in the machine's steps (log entry 7). It is refused while a run or a
`schedule()` is in progress (log entry 9). -/
def State.schedule (s : State) : HostReply × State :=
  if s.busy || s.scheduling then (.refused .busy, s)
  else (.started, { s with scheduling := true })

/-- R330, R331: the host issues a command to core `i`. A run begins here and goes on in the machine's steps; the core it
runs is put in front of the engine (log entries 6, 9, 10). -/
def State.command (s : State) (i : Nat) (c : HostCmd) : HostReply × State :=
  match s.coreAt i with
  | none => (.refused .noSuchCore, s)
  | some k =>
    match c with
    | .run =>
      if s.busy || s.scheduling then (.refused .busy, s)
      else if k.busy then (.refused .busy, s)
      else if k.status = .halted ∨ k.status = .faulted then (.returned k.status k.fault, s)
      else
        match s.focus i with
        | none => (.refused .noSuchCore, s)
        | some t => (.started, t.runBegin)
    | .feed vs => s.serve i k (fun p k => k.hostFeed p vs)
    | .takeOutput => s.serve i k (fun _ k => k.takeOutput)
    | .outputs => s.serve i k (fun _ k => k.outputs)
    | .memoryAt a => s.serve i k (fun _ k => k.memoryAt a)
    | .drain => s.serve i k (fun _ k => k.drain)

end Sys2Proof.Machine
end

