-- ==== Sys2Proof/Machine/Step.lean ====
section
/-! DEFINITION. One step of the machine. While a run is in progress it is one instruction of the running core
(spec/40_execution_cycle.md, R130), or the return of that run (R140); while `schedule()` is in progress between runs it is the
scheduler's (spec/60_exceptions.md, R351). With neither, nothing acts until the host does (R310, R371; log entry 5). -/

namespace Sys2Proof.Machine

/-- One step of the machine. -/
def step (s : State) : Host.Outcome State Fault Refusal :=
  if s.busy then
    if s.status = .running then s.engineStep else .next s.runReturn
  else if s.scheduling then s.schedStep
  else .next s

/-- The state in which the next step runs the instruction that the opcode table's bits give (log entries 8 and 12). -/
def State.withFetchWord (s : State) (nbits w : Nat) : State :=
  s.withFetchWords (tableWords nbits w)

end Sys2Proof.Machine
end

