-- ==== Sys2Proof/Machine/Executor.lean ====
section
/-! DEFINITION. An executor under fuel for `run()` and `schedule()` (spec/40_execution_cycle.md, R142). Running out of fuel is a
property of the executor, never a halt: it answers none. -/

namespace Sys2Proof.Machine

/-- R142, R143: steps until no run and no `schedule()` is in progress, at most `fuel` of them. -/
def State.runToReturn : Nat → State → Option State
  | 0, s => if s.busy || s.scheduling then none else some s
  | fuel + 1, s =>
    if s.busy || s.scheduling then
      match step s with
      | .next t => State.runToReturn fuel t
      | .fault _ => none
      | .refused _ => none
    else some s

/-- R140: the host's `run()` on core `i`, to its return: the reply, and the state it leaves. -/
def State.hostRun (s : State) (i fuel : Nat) : Option (HostReply × State) :=
  match s.command i .run with
  | (.started, t) =>
    match t.runToReturn fuel with
    | none => none
    | some u =>
      match u.coreAt i with
      | none => none
      | some k => some (.returned k.status k.fault, u)
  | (r, t) => some (r, t)

end Sys2Proof.Machine
end

