-- ==== Sys2Proof/Safety.lean ====
section
/-! DEFINITION. What a state of the hardware satisfies (spec/10_state.md, spec/60_exceptions.md R301), as one invariant that claims use,
and what a run without a fault is. -/

namespace Sys2Proof

open Machine in
/-- R96: the instructions of format RRW, each with the word it computes (R160, R165, R220, R225) and its operands. -/
def Instr.rrw : Instr → Option ((Word → Word → Word) × Operand × Operand × Operand)
  | .add a b dst => some (addWords, a, b, dst)
  | .mul a b dst => some (mulWords, a, b, dst)
  | .lt a b dst => some (ltWord, a, b, dst)
  | .eq a b dst => some (eqWord, a, b, dst)
  | .inp _ => none
  | .out _ => none
  | .jt _ _ => none
  | .jf _ _ => none
  | .arb _ => none
  | .hlt => none

end Sys2Proof

namespace Sys2Proof.Machine

/-! ## When an operand resolves -/

/-- R110: a read operand resolves. An Immediate one always does; another one's address is an architectural address. -/
abbrev State.readable (s : State) (o : Operand) : Prop :=
  ∀ a ∈ s.effAddr o, 0 ≤ a ∧ a ≤ addrMax

/-- R110: the value of a read operand that resolves. -/
def State.value (s : State) (o : Operand) : Word :=
  match s.effAddr o with
  | none => o.raw
  | some a => s.mem.read a.toNat

/-- R111: a write operand resolves to address `d`. -/
abbrev State.writableAt (s : State) (o : Operand) (d : Nat) : Prop :=
  s.effAddr o = some (d : Int) ∧ (d : Int) ≤ addrMax ∧ d < s.params.memLimit

/-- R134: an instruction of `len` words can continue sequentially. -/
abbrev State.continues (s : State) (len : Nat) : Prop := s.ip.toInt + len ≤ int64Max

/-- The parts of the block that no instruction touches: the parameters, the other cores, the scheduler, BUSY and OUTCUR
(R45, R46). -/
def State.sameBlock (s t : State) : Prop :=
  t.params = s.params ∧ t.before = s.before ∧ t.after = s.after ∧ t.cur = s.cur ∧ t.runs = s.runs ∧
    t.nstatus = s.nstatus ∧ t.scheduling = s.scheduling ∧ t.busy = s.busy ∧ t.outCur = s.outCur

/-! ## A turn of the scheduler -/

/-- R351: from `s`, where the run of core CUR has returned and not Faulted, the turn ends in `t`: RUNS counted, the outputs
transferred, NSTATUS by the transfer and the all-halted test, and CUR moved on (after a failed transfer, log entry 16). -/
def State.turnEndsIn (s t : State) : Prop :=
  t.runs = s.runs + 1 ∧ t.cur = (s.cur + 1) % s.netN ∧ t.params = s.params ∧ t.scheduling = s.scheduling ∧
    t.cores = (s.transfer s.cur).cores ∧
    ((s.transfer s.cur).nstatus ≠ .scheduling → t.nstatus = .failed .queueOverflow) ∧
    ((s.transfer s.cur).nstatus = .scheduling →
      ((∃ k ∈ t.cores, k.status ≠ .halted) → t.nstatus = .scheduling) ∧
      ((∀ k ∈ t.cores, k.status = .halted) → t.nstatus = t.answer))

/-! ## The invariant -/

/-- R31, R61, R63: memory is in its canonical form, and only writable cells are listed. -/
def Memory.fits (m : Memory) (p : Params) : Prop :=
  m.wf = true ∧ ∀ c ∈ m, c.1 < p.memLimit

/-- R301: the column `FAULT.addr`, for one reason. -/
def addrFits (p : Params) : FaultReason → Option Int → Prop
  | .negativeAddress, some a => a < 0
  | .addressOverflow, some a => addrMax < a
  | .capacityExceeded, some a => (p.memLimit : Int) ≤ a ∧ a ≤ addrMax
  | .invalidOpcode, none => True
  | .invalidMode, none => True
  | .invalidWriteMode, none => True
  | .queueOverflow, none => True
  | .noOutputAvailable, none => True
  | _, _ => False

/-- R39, R301, R302: a FAULT record is the one of construction, or a raised one whose address its reason allows. -/
def FaultRecord.fits (f : FaultRecord) (p : Params) : Prop :=
  f = FaultRecord.none ∨
    ∃ r a v o, f = { valid := true, reason := some r, ip := some v, addr := a, operand := o } ∧ addrFits p r a

/-- What holds of every core: R31, R40, R41 and, by R38 and R302, that STATUS is Faulted exactly when FAULT is valid. -/
structure CoreState.Inv (k : CoreState) (p : Params) : Prop where
  mem_fits : k.mem.fits p
  outCur_le : k.outCur ≤ k.outLog.length
  inq_le : withinCap p.inCap k.inq.length = true
  outLog_le : withinCap p.outCap k.outLog.length = true
  fault_fits : k.fault.fits p
  faulted_iff : k.status = .faulted ↔ k.fault.valid = true

/-- What holds of the whole machine: R9, every core's invariant, CUR in range (R47), and one run at a time (R331, R356). -/
structure State.Inv (s : State) : Prop where
  params_wf : s.params.wf = true
  cores_inv : ∀ k ∈ s.cores, k.Inv s.params
  cur_lt : s.cur < s.netN
  parked_before : ∀ k ∈ s.before, k.busy = false
  parked_after : ∀ k ∈ s.after, k.busy = false
  running_core_is_cur : s.scheduling = true → s.busy = true → s.before.length = s.cur

/-- A run of `n` steps that ends without a fault of the core in front of the engine. -/
def runsWithoutFault (s : State) : Nat → Prop
  | 0 => s.status ≠ .faulted
  | n + 1 => s.status ≠ .faulted ∧ ∃ t, step s = .next t ∧ runsWithoutFault t n

end Sys2Proof.Machine
end

