-- ==== Sys2Proof/WellFormed.lean ====
section
/-! DEFINITION. Which instructions are legal encodings (spec/30_encoding.md, R100, R101). The types of `Instr` leave one
check: no write operand is Immediate (log entry 13). An instruction that fails it still decodes, and faults when it
executes (R111). -/

namespace Sys2Proof

/-- R100: a write operand's mode digit is 0 or 2. -/
def Operand.writable (o : Operand) : Bool :=
  match o.mode with
  | .position => true
  | .immediate => false
  | .relative => true

/-- R101: every encoding of the instruction set but the illegal write mode. -/
def Instr.wf : Instr → Bool
  | .add _ _ dst => dst.writable
  | .mul _ _ dst => dst.writable
  | .inp dst => dst.writable
  | .out _ => true
  | .jt _ _ => true
  | .jf _ _ => true
  | .lt _ _ dst => dst.writable
  | .eq _ _ dst => dst.writable
  | .arb _ => true
  | .hlt => true

end Sys2Proof
end

