-- ==== Sys2Proof/Certificates/Slice0/Obligations.lean ====
section
/-! DEFINITION. The statements about the model, each with the rule of spec/ it formalises. -/

open Sys2Proof Sys2Proof.Machine

/-! ## Encoding -/

/-- 30_encoding.md R100, R102; 95_test_vectors.md V1, V3: one word sequence of the spec for each instruction. -/
def Obligations.DecodeOfTheSpecsWords : Prop :=
  decode [1001, 100, 1, 100] = .ok (.add ⟨.position, 100⟩ ⟨.immediate, 1⟩ ⟨.position, 100⟩, []) ∧
  decode [1002, 4, 3, 4] = .ok (.mul ⟨.position, 4⟩ ⟨.immediate, 3⟩ ⟨.position, 4⟩, []) ∧
  decode [203, 0] = .ok (.inp ⟨.relative, 0⟩, []) ∧
  decode [204, -1] = .ok (.out ⟨.relative, -1⟩, []) ∧
  decode [1105, 1, 4] = .ok (.jt ⟨.immediate, 1⟩ ⟨.immediate, 4⟩, []) ∧
  decode [1006, 101, 0] = .ok (.jf ⟨.position, 101⟩ ⟨.immediate, 0⟩, []) ∧
  decode [1107, 3, 8, 5] = .ok (.lt ⟨.immediate, 3⟩ ⟨.immediate, 8⟩ ⟨.position, 5⟩, []) ∧
  decode [1008, 100, 16, 101] = .ok (.eq ⟨.position, 100⟩ ⟨.immediate, 16⟩ ⟨.position, 101⟩, []) ∧
  decode [109, 1] = .ok (.arb ⟨.immediate, 1⟩, []) ∧
  decode [99] = .ok (.hlt, [])

/-- R102, R95, R97, R98: every instruction, with every operand, comes back from its encoding, whatever words follow. -/
def Obligations.DecodeOfEncodeIsTheInstruction : Prop :=
  ∀ (i : Instr) (rest : List Word), decode (encode i ++ rest) = .ok (i, rest)

/-- R94, R102: where the instruction word is canonical (five digits, and 0 in every mode position the instruction does not
use), the encoder gives back the very words decoded. -/
def Obligations.EncodeOfDecodeIsTheCanonicalWords : Prop :=
  ∀ (w : Word) (ws rest : List Word) (i : Instr),
    decode (w :: ws) = .ok (i, rest) → w.toNat < 100000 →
    (∀ k < 3, i.operands.length ≤ k → digit (k + 2) w = 0) →
    encode i ++ rest = w :: ws

/-- R94: field E is ignored, so words that differ only in it are aliases; `100001` is ADD with modes 0, 0, 0; a canonical
word is at most 22299. -/
def Obligations.HighDigitsAreIgnored : Prop :=
  (∀ w w' : Word, 0 ≤ w.toInt → 0 ≤ w'.toInt → w.toNat % 100000 = w'.toNat % 100000 →
    decodeHead w = decodeHead w') ∧
  decodeHead 100001 = .ok { op := .add, a := .position, b := .position, c := .position } ∧
  (∀ i : Instr, i.headValue ≤ 22299)

/-- R95 (with R91, R93): the whole of `decode(w)`: which words fault, in which order, and what the others give. -/
def Obligations.DecoderOutcomes : Prop :=
  ∀ w : Word,
    (w.toInt < 0 → decodeWord w = .error { reason := .invalidOpcode, addr := none, operand := none }) ∧
    (0 ≤ w.toInt → w.toNat % 100 ∉ [1, 2, 3, 4, 5, 6, 7, 8, 9, 99] →
      decodeWord w = .error { reason := .invalidOpcode, addr := none, operand := none }) ∧
    (0 ≤ w.toInt → w.toNat % 100 ∈ [1, 2, 3, 4, 5, 6, 7, 8, 9, 99] → (∃ k ∈ [2, 3, 4], 2 < digit k w) →
      decodeWord w = .error { reason := .invalidMode, addr := none, operand := none }) ∧
    (0 ≤ w.toInt → w.toNat % 100 ∈ [1, 2, 3, 4, 5, 6, 7, 8, 9, 99] → (∀ k ∈ [2, 3, 4], digit k w ≤ 2) →
      ∃ h, decodeWord w = .ok h ∧ h.op.code = w.toNat % 100 ∧ h.a.digit = digit 2 w ∧
        h.b.digit = digit 3 w ∧ h.c.digit = digit 4 w)

/-- R103, R96: the decoder takes 1, 2, 3 or 4 words, as many as `OP` alone says. -/
def Obligations.DecodeTakesTheLengthOfOp : Prop :=
  ∀ (w : Word) (ws rest : List Word) (i : Instr), decode (w :: ws) = .ok (i, rest) →
    ∃ taken, w :: ws = taken ++ rest ∧ taken.length = i.length ∧
      (w.toNat % 100 ∈ [1, 2, 7, 8] ∧ taken.length = 4 ∨ w.toNat % 100 ∈ [5, 6] ∧ taken.length = 3 ∨
        w.toNat % 100 ∈ [3, 4, 9] ∧ taken.length = 2 ∨ w.toNat % 100 = 99 ∧ taken.length = 1)

/-! ## The step -/

/-- R130, R133: while a run is in progress, where the words at IP decode to an instruction, the step is that instruction's
meaning at the same state. -/
def Obligations.StepRunsTheDecodedInstruction : Prop :=
  ∀ (s : State) (n : Nat) (i : Instr) (rest : List Word),
    s.busy = true → s.status = .running → 0 ≤ s.ip.toInt → s.ip.toInt + n - 1 ≤ addrMax →
    decode ((List.range n).map fun k => s.mem.read (s.ip.toNat + k)) = .ok (i, rest) →
    step s = exec i s

/-- R131, R132, R95, R304: a fetch at a negative IP faults with that address; a fetched word that the decoder rejects is the
fault action with the decoder's own cause, before any operand check; a cell never written fetches 0, which is no opcode. -/
def Obligations.FetchFaults : Prop :=
  ∀ s : State, s.busy = true → s.status = .running →
    (s.ip.toInt < 0 →
      step s = .next (s.raise { reason := .negativeAddress, addr := some s.ip.toInt, operand := none })) ∧
    (0 ≤ s.ip.toInt → ∀ c, decodeWord (s.mem.read s.ip.toNat) = .error c → step s = .next (s.raise c)) ∧
    (0 ≤ s.ip.toInt → s.mem.read s.ip.toNat = 0 →
      step s = .next (s.raise { reason := .invalidOpcode, addr := none, operand := none }))

/-- R134: the two checks that keep IP from passing INT64_MAX. The first comes before the operand fetch; the second is
`seqNext`, which IN calls even when it would block, and which a taken jump does not call. -/
def Obligations.IpRangeChecks : Prop :=
  (∀ (s : State) (h : Head), s.busy = true → s.status = .running → 0 ≤ s.ip.toInt →
    decodeHead (s.mem.read s.ip.toNat) = .ok h → addrMax < s.ip.toInt + h.op.length - 1 →
    step s = .next (s.raise
      { reason := .addressOverflow, addr := some (s.ip.toInt + h.op.length - 1), operand := none })) ∧
  (∀ (s : State) (i : Instr) (f : Word → Word → Word) (a b dst : Operand) (d : Nat),
    i.rrw = some (f, a, b, dst) → s.readable a → s.readable b → s.writableAt dst d → ¬ s.continues 4 →
    exec i s = .next (s.raise { reason := .addressOverflow, addr := some (s.ip.toInt + 4), operand := none })) ∧
  (∀ (s : State) (dst : Operand) (d : Nat), s.writableAt dst d → ¬ s.continues 2 →
    exec (.inp dst) s =
      .next (s.raise { reason := .addressOverflow, addr := some (s.ip.toInt + 2), operand := none })) ∧
  (∀ (s : State) (a : Operand), s.readable a → ¬ s.continues 2 →
    exec (.out a) s =
      .next (s.raise { reason := .addressOverflow, addr := some (s.ip.toInt + 2), operand := none }) ∧
    exec (.arb a) s =
      .next (s.raise { reason := .addressOverflow, addr := some (s.ip.toInt + 2), operand := none })) ∧
  (∀ (s : State) (a b : Operand), s.readable a → s.readable b → ¬ s.continues 3 →
    (s.value a = 0 → exec (.jt a b) s =
      .next (s.raise { reason := .addressOverflow, addr := some (s.ip.toInt + 3), operand := none })) ∧
    (s.value a ≠ 0 → exec (.jt a b) s = .next (s.setIp (s.value b))) ∧
    (s.value a ≠ 0 → exec (.jf a b) s =
      .next (s.raise { reason := .addressOverflow, addr := some (s.ip.toInt + 3), operand := none })) ∧
    (s.value a = 0 → exec (.jf a b) s = .next (s.setIp (s.value b))))

/-! ## The resolver -/

/-- R110 and R111: what each mode of a read operand and of a write operand resolves to, and what it faults with, each
with the operand's index. `a` is the exact address: the raw word, or the exact sum of RB and the raw word. R111 itself gives
CapacityExceeded its address; log entry 20 says how the field table of R39 reads beside it. -/
def Obligations.ResolverByMode : Prop :=
  ∀ (s : State) (k : Fin 3) (r : Word),
    s.resolveRead k ⟨.immediate, r⟩ = .ok r ∧
    s.resolveWrite k ⟨.immediate, r⟩ =
      .error { reason := .invalidWriteMode, addr := none, operand := some k } ∧
    ∀ (m : Mode) (a : Int), (m = .position ∧ a = r.toInt ∨ m = .relative ∧ a = s.rb.toInt + r.toInt) →
      (a < 0 →
        s.resolveRead k ⟨m, r⟩ = .error { reason := .negativeAddress, addr := some a, operand := some k } ∧
        s.resolveWrite k ⟨m, r⟩ = .error { reason := .negativeAddress, addr := some a, operand := some k }) ∧
      (addrMax < a →
        s.resolveRead k ⟨m, r⟩ = .error { reason := .addressOverflow, addr := some a, operand := some k } ∧
        s.resolveWrite k ⟨m, r⟩ = .error { reason := .addressOverflow, addr := some a, operand := some k }) ∧
      (0 ≤ a → a ≤ addrMax →
        s.resolveRead k ⟨m, r⟩ = .ok (s.mem.read a.toNat) ∧
        ((s.params.memLimit : Int) ≤ a → s.resolveWrite k ⟨m, r⟩ =
          .error { reason := .capacityExceeded, addr := some a, operand := some k }) ∧
        (a < s.params.memLimit → s.resolveWrite k ⟨m, r⟩ = .ok a.toNat))

/-- R112: a Position address is the raw word, which never passes ADDR_MAX; a Relative address is the exact integer sum of RB and
the raw word, in -2^64 .. 2^64 - 2, and where that sum is below INT64_MIN it faults with NegativeAddress at the sum. -/
def Obligations.RelativeSumsNeverWrap : Prop :=
  ∀ (s : State) (k : Fin 3) (r : Word),
    s.effAddr ⟨.position, r⟩ = some r.toInt ∧ r.toInt ≤ addrMax ∧
    s.effAddr ⟨.relative, r⟩ = some (s.rb.toInt + r.toInt) ∧
    -18446744073709551616 ≤ s.rb.toInt + r.toInt ∧ s.rb.toInt + r.toInt ≤ 18446744073709551614 ∧
    (s.rb.toInt + r.toInt < int64Min →
      s.resolveRead k ⟨.relative, r⟩ =
        .error { reason := .negativeAddress, addr := some (s.rb.toInt + r.toInt), operand := some k } ∧
      s.resolveWrite k ⟨.relative, r⟩ =
        .error { reason := .negativeAddress, addr := some (s.rb.toInt + r.toInt), operand := some k })

/-! ## What each instruction does -/

/-- R160: where its operands resolve and it can continue, ADD completes: the wrapped exact sum is stored and IP advances
by 4, and nothing else changes. -/
def Obligations.AddStoresTheWrappedSum : Prop :=
  ∀ (s : State) (a b dst : Operand) (d : Nat),
    s.readable a → s.readable b → s.writableAt dst d → s.continues 4 →
    exec (.add a b dst) s = .next
      ((s.storeWord d (wrap64 ((s.value a).toInt + (s.value b).toInt))).setIp (wrap64 (s.ip.toInt + 4)))

/-- R165: MUL likewise stores the wrapped exact signed product. -/
def Obligations.MulStoresTheWrappedProduct : Prop :=
  ∀ (s : State) (a b dst : Operand) (d : Nat),
    s.readable a → s.readable b → s.writableAt dst d → s.continues 4 →
    exec (.mul a b dst) s = .next
      ((s.storeWord d (wrap64 ((s.value a).toInt * (s.value b).toInt))).setIp (wrap64 (s.ip.toInt + 4)))

/-- R220: LT stores 1 where the first value is below the second as signed words, else 0. -/
def Obligations.LtStoresTheSignedComparison : Prop :=
  ∀ (s : State) (a b dst : Operand) (d : Nat),
    s.readable a → s.readable b → s.writableAt dst d → s.continues 4 →
    ((s.value a).toInt < (s.value b).toInt →
      exec (.lt a b dst) s = .next ((s.storeWord d 1).setIp (wrap64 (s.ip.toInt + 4)))) ∧
    ((s.value b).toInt ≤ (s.value a).toInt →
      exec (.lt a b dst) s = .next ((s.storeWord d 0).setIp (wrap64 (s.ip.toInt + 4))))

/-- R225: EQ stores 1 where the two full words are equal, else 0. -/
def Obligations.EqStoresTheEquality : Prop :=
  ∀ (s : State) (a b dst : Operand) (d : Nat),
    s.readable a → s.readable b → s.writableAt dst d → s.continues 4 →
    (s.value a = s.value b →
      exec (.eq a b dst) s = .next ((s.storeWord d 1).setIp (wrap64 (s.ip.toInt + 4)))) ∧
    (s.value a ≠ s.value b →
      exec (.eq a b dst) s = .next ((s.storeWord d 0).setIp (wrap64 (s.ip.toInt + 4))))

/-- R180: IN takes the front of INQ to its destination and advances IP by 2; with INQ empty it changes STATUS to
WaitingForInput and nothing else. -/
def Obligations.InTakesTheFrontOrBlocks : Prop :=
  ∀ (s : State) (dst : Operand) (d : Nat), s.writableAt dst d → s.continues 2 →
    (∀ x xs, s.inq = x :: xs → exec (.inp dst) s =
      .next (((s.setInq xs).storeWord d x).setIp (wrap64 (s.ip.toInt + 2)))) ∧
    (s.inq = [] → exec (.inp dst) s = .next (s.setStatus .waitingForInput))

/-- R185: OUT appends its operand's value to OUTLOG and advances IP by 2, whatever the value; with OUT_CAP bounded and
reached it faults instead. -/
def Obligations.OutAppendsItsValue : Prop :=
  ∀ (s : State) (a : Operand), s.readable a → s.continues 2 →
    (s.params.outCap ≠ some s.outLog.length → exec (.out a) s =
      .next ((s.appendOut (s.value a)).setIp (wrap64 (s.ip.toInt + 2)))) ∧
    (s.params.outCap = some s.outLog.length → exec (.out a) s =
      .next (s.raise { reason := .queueOverflow, addr := none, operand := none }))

/-- R200: JT takes the target on any non-zero word, and falls through by 3 on zero. -/
def Obligations.JtJumpsOnNonZero : Prop :=
  ∀ (s : State) (a b : Operand), s.readable a → s.readable b →
    (s.value a ≠ 0 → exec (.jt a b) s = .next (s.setIp (s.value b))) ∧
    (s.value a = 0 → s.continues 3 → exec (.jt a b) s = .next (s.setIp (wrap64 (s.ip.toInt + 3))))

/-- R205: JF takes the target on the word 0 only, and falls through by 3 on any other. -/
def Obligations.JfJumpsOnZero : Prop :=
  ∀ (s : State) (a b : Operand), s.readable a → s.readable b →
    (s.value a = 0 → exec (.jf a b) s = .next (s.setIp (s.value b))) ∧
    (s.value a ≠ 0 → s.continues 3 → exec (.jf a b) s = .next (s.setIp (wrap64 (s.ip.toInt + 3))))

/-- R240, R241: ARB adds its operand's value, resolved with the old RB, to RB with wrap, whatever the new RB is, and
advances IP by 2. -/
def Obligations.ArbAddsToTheRelativeBase : Prop :=
  ∀ (s : State) (a : Operand), s.readable a → s.continues 2 →
    exec (.arb a) s = .next
      ((s.setRb (wrap64 (s.rb.toInt + (s.value a).toInt))).setIp (wrap64 (s.ip.toInt + 2)))

/-- R250: HLT makes STATUS Halted and changes nothing else, IP included. -/
def Obligations.HltHalts : Prop :=
  ∀ s : State, exec .hlt s = .next (s.setStatus .halted)

/-! ## Which fault is reported -/

/-- R304, items 4 and 5, for ADD, MUL, LT and EQ: the first check that fails, in operand order and then `seqNext`, is
the one reported, with its exact address and its operand. -/
def Obligations.StoringInstructionsReportTheFirstFault : Prop :=
  ∀ (s : State) (i : Instr) (f : Word → Word → Word) (a b dst : Operand), i.rrw = some (f, a, b, dst) →
    (∀ x, s.effAddr a = some x → x < 0 →
      exec i s = .next (s.raise { reason := .negativeAddress, addr := some x, operand := some 0 })) ∧
    (∀ x, s.effAddr a = some x → addrMax < x →
      exec i s = .next (s.raise { reason := .addressOverflow, addr := some x, operand := some 0 })) ∧
    (s.readable a → ∀ x, s.effAddr b = some x → x < 0 →
      exec i s = .next (s.raise { reason := .negativeAddress, addr := some x, operand := some 1 })) ∧
    (s.readable a → ∀ x, s.effAddr b = some x → addrMax < x →
      exec i s = .next (s.raise { reason := .addressOverflow, addr := some x, operand := some 1 })) ∧
    (s.readable a → s.readable b → s.effAddr dst = none →
      exec i s = .next (s.raise { reason := .invalidWriteMode, addr := none, operand := some 2 })) ∧
    (s.readable a → s.readable b → ∀ x, s.effAddr dst = some x → x < 0 →
      exec i s = .next (s.raise { reason := .negativeAddress, addr := some x, operand := some 2 })) ∧
    (s.readable a → s.readable b → ∀ x, s.effAddr dst = some x → addrMax < x →
      exec i s = .next (s.raise { reason := .addressOverflow, addr := some x, operand := some 2 })) ∧
    (s.readable a → s.readable b → ∀ x, s.effAddr dst = some x → 0 ≤ x → x ≤ addrMax →
      (s.params.memLimit : Int) ≤ x →
      exec i s = .next (s.raise { reason := .capacityExceeded, addr := some x, operand := some 2 }))

/-- R180, R304 and 90_conflicts.md C10: an IN that would fault faults whatever INQ holds, and does not block. -/
def Obligations.InFaultsBeforeItBlocks : Prop :=
  ∀ (s : State) (dst : Operand),
    (s.effAddr dst = none →
      exec (.inp dst) s = .next (s.raise { reason := .invalidWriteMode, addr := none, operand := some 0 })) ∧
    (∀ x, s.effAddr dst = some x → x < 0 →
      exec (.inp dst) s = .next (s.raise { reason := .negativeAddress, addr := some x, operand := some 0 })) ∧
    (∀ x, s.effAddr dst = some x → addrMax < x →
      exec (.inp dst) s = .next (s.raise { reason := .addressOverflow, addr := some x, operand := some 0 })) ∧
    (∀ x, s.effAddr dst = some x → 0 ≤ x → x ≤ addrMax → (s.params.memLimit : Int) ≤ x →
      exec (.inp dst) s = .next (s.raise { reason := .capacityExceeded, addr := some x, operand := some 0 })) ∧
    (∀ d, s.writableAt dst d → ¬ s.continues 2 →
      exec (.inp dst) s =
        .next (s.raise { reason := .addressOverflow, addr := some (s.ip.toInt + 2), operand := none }))

/-- R304 for the instructions that only read operands (OUT, ARB, JT, JF): a bad first operand is reported first, a
bad second one after it. -/
def Obligations.ReadingInstructionsReportTheFirstFault : Prop :=
  ∀ (s : State) (a b : Operand) (i : Instr),
    (i = .out a ∨ i = .arb a ∨ i = .jt a b ∨ i = .jf a b) →
    (∀ x, s.effAddr a = some x → x < 0 →
      exec i s = .next (s.raise { reason := .negativeAddress, addr := some x, operand := some 0 })) ∧
    (∀ x, s.effAddr a = some x → addrMax < x →
      exec i s = .next (s.raise { reason := .addressOverflow, addr := some x, operand := some 0 })) ∧
    ((i = .jt a b ∨ i = .jf a b) → s.readable a → ∀ x, s.effAddr b = some x →
      (x < 0 →
        exec i s = .next (s.raise { reason := .negativeAddress, addr := some x, operand := some 1 })) ∧
      (addrMax < x →
        exec i s = .next (s.raise { reason := .addressOverflow, addr := some x, operand := some 1 })))

/-! ## Frames -/

/-- R136, R45: what ADD, MUL, LT and EQ leave unchanged: RB, the queues, STATUS and FAULT (or the fault action has been
taken), the rest of the block, and every word of memory but the one at the destination's effective address. -/
def Obligations.FrameOfTheStoringInstructions : Prop :=
  ∀ (s t : State) (i : Instr) (f : Word → Word → Word) (a b dst : Operand),
    i.rrw = some (f, a, b, dst) → exec i s = .next t →
    s.sameBlock t ∧ t.rb = s.rb ∧ t.inq = s.inq ∧ t.outLog = s.outLog ∧
      (t.status = s.status ∧ t.fault = s.fault ∨ ∃ c, t = s.raise c) ∧
      (∀ x : Nat, s.effAddr dst ≠ some (x : Int) → t.mem.read x = s.mem.read x)

/-- R136, R45: what IN leaves unchanged. Where it blocks or faults, memory, IP and INQ are all as they were. -/
def Obligations.FrameOfIn : Prop :=
  ∀ (s t : State) (dst : Operand), exec (.inp dst) s = .next t →
    s.sameBlock t ∧ t.rb = s.rb ∧ t.outLog = s.outLog ∧
      (∀ x : Nat, s.effAddr dst ≠ some (x : Int) → t.mem.read x = s.mem.read x) ∧
      ((t.status = s.status ∧ t.fault = s.fault ∧ ∃ x, s.inq = x :: t.inq) ∨
        t = s.setStatus .waitingForInput ∨ ∃ c, t = s.raise c)

/-- R136, R45: what OUT leaves unchanged: all but OUTLOG and IP, or all but STATUS and FAULT where it faults. -/
def Obligations.FrameOfOut : Prop :=
  ∀ (s t : State) (a : Operand), exec (.out a) s = .next t →
    s.sameBlock t ∧ t.rb = s.rb ∧ t.inq = s.inq ∧ (∀ x, t.mem.read x = s.mem.read x) ∧
      (t.status = s.status ∧ t.fault = s.fault ∧ (∃ v, t.outLog = s.outLog ++ [v]) ∨ ∃ c, t = s.raise c)

/-- R136, R198: JT and JF change IP alone, or take the fault action. -/
def Obligations.FrameOfTheJumps : Prop :=
  ∀ (s t : State) (a b : Operand) (i : Instr), (i = .jt a b ∨ i = .jf a b) → exec i s = .next t →
    s.sameBlock t ∧ t.rb = s.rb ∧ t.inq = s.inq ∧ t.outLog = s.outLog ∧
      (∀ x, t.mem.read x = s.mem.read x) ∧
      (t.status = s.status ∧ t.fault = s.fault ∨ ∃ c, t = s.raise c)

/-- R136: ARB changes RB and IP alone, or takes the fault action; HLT changes STATUS alone. -/
def Obligations.FrameOfArbAndHlt : Prop :=
  ∀ s t : State,
    (∀ a, exec (.arb a) s = .next t →
      s.sameBlock t ∧ t.inq = s.inq ∧ t.outLog = s.outLog ∧ (∀ x, t.mem.read x = s.mem.read x) ∧
        (t.status = s.status ∧ t.fault = s.fault ∨ ∃ c, t = s.raise c)) ∧
    (exec .hlt s = .next t →
      s.sameBlock t ∧ t.ip = s.ip ∧ t.rb = s.rb ∧ t.inq = s.inq ∧ t.outLog = s.outLog ∧
        t.fault = s.fault ∧ ∀ x, t.mem.read x = s.mem.read x)

/-! ## Whole-machine rules -/

/-- R35: only ARB writes RB, and only Relative operands (and ARB's sum) read it: an instruction with neither does the
same whatever RB holds. -/
def Obligations.RelativeBaseIsReadAndWrittenByFew : Prop :=
  (∀ s t : State, s.busy = true → s.status = .running → step s = .next t → t.rb ≠ s.rb →
    ∃ a, s.fetch = .ok (.arb a)) ∧
  (∀ (i : Instr) (s t : State) (r : Word), (∀ o ∈ i.operands, o.mode ≠ .relative) → (∀ a, i ≠ .arb a) →
    exec i s = .next t → exec i (s.setRb r) = .next (t.setRb r))

/-- R38: the rows of the table that a step makes. For every core: its status stays, or it is the running core and the
step executed HLT, blocked on IN or took the fault action, or it is core CUR, waiting, and the scheduler runs it. When the
scheduler's step comes is the model's choice (log entries 6 and 7). -/
def Obligations.StepChangesStatusByTheTable : Prop :=
  ∀ (s t : State) (j : Nat) (k k' : CoreState), step s = .next t → s.coreAt j = some k → t.coreAt j = some k' →
    k'.status = k.status ∨
    (j = s.before.length ∧ s.busy = true ∧ k.status = .running ∧
      (k'.status = .halted ∧ s.fetch = .ok .hlt ∨
        (k'.status = .waitingForInput ∧ s.inq = [] ∧ ∃ dst, s.fetch = .ok (.inp dst)) ∨
        (k'.status = .faulted ∧ ∃ c, t = s.raise c))) ∨
    (j = s.cur ∧ s.busy = false ∧ s.scheduling = true ∧ k.status = .waitingForInput ∧ k'.status = .running)

/-- R38: the rows of the table that a host command makes: `run` on a waiting core, and the faults of `takeOutput` on an
empty buffer and of `memoryAt` of a negative address. Every other command leaves every core's status, `feed` among them. -/
def Obligations.CommandChangesStatusByTheTable : Prop :=
  ∀ (s : State) (i j : Nat) (c : HostCmd) (k k' : CoreState),
    s.coreAt j = some k → (s.command i c).2.coreAt j = some k' →
    k'.status = k.status ∨
    (j = i ∧ c = .run ∧ k.status = .waitingForInput ∧ k'.status = .running) ∨
    (j = i ∧ k'.status = .faulted ∧
      (c = .takeOutput ∧ k.buffered = [] ∨ ∃ a : Word, c = .memoryAt a ∧ a.toInt < 0))

/-- R38, R251, R302: no step makes a Halted or Faulted core do anything: its memory, registers, log, status and fault record
stay as they are. -/
def Obligations.HaltedAndFaultedCoresStayPut : Prop :=
  ∀ (s t : State) (j : Nat) (k : CoreState), step s = .next t → s.coreAt j = some k →
    (k.status = .halted ∨ k.status = .faulted) →
    ∃ k', t.coreAt j = some k' ∧ k'.status = k.status ∧ k'.fault = k.fault ∧ k'.mem = k.mem ∧
      k'.ip = k.ip ∧ k'.rb = k.rb ∧ k'.outLog = k.outLog

/-- R137: a step that ends in Faulted keeps MEM, IP, RB, INQ, OUTLOG and OUTCUR: it is the fault action of R302 and
nothing else. -/
def Obligations.AFaultingStepHasNoOtherEffect : Prop :=
  ∀ s t : State, s.busy = true → s.status = .running → step s = .next t → t.status = .faulted →
    (∃ c, t = s.raise c) ∧ t.mem = s.mem ∧ t.ip = s.ip ∧ t.rb = s.rb ∧ t.inq = s.inq ∧
      t.outLog = s.outLog ∧ t.outCur = s.outCur ∧ s.sameBlock t ∧
      (s.fault.valid = false → t.fault.valid = true ∧ t.fault.ip = some s.ip)

/-- R302: the fault action: the first fault is recorded, with IP as it is and the operand being resolved if any, and kept;
STATUS becomes Faulted and no other element changes; a Faulted core never runs again. -/
def Obligations.FaultActionKeepsTheFirstFault : Prop :=
  (∀ (s : State) (c : FaultCause),
    (s.raise c).status = .faulted ∧
    (s.fault.valid = false → (s.raise c).fault =
      { valid := true, reason := some c.reason, ip := some s.ip, addr := c.addr, operand := c.operand }) ∧
    (s.fault.valid = true → (s.raise c).fault = s.fault) ∧
    { s.raise c with status := s.status, fault := s.fault } = s) ∧
  (∀ (s : State) (c : FaultCause) (k : Fin 3) (o : Operand) (len : Nat),
    (s.resolveRead k o = .error c → c.operand = some k) ∧
    (s.resolveWrite k o = .error c → c.operand = some k) ∧
    (s.fetch = .error c → c.operand = none) ∧
    (s.seqNext len = .error c → c.operand = none)) ∧
  (∀ (s : State) (i : Nat) (k : CoreState), s.coreAt i = some k → k.status = .faulted →
    s.busy = false → s.scheduling = false → k.busy = false →
    s.command i .run = (.returned .faulted k.fault, s))

/-- R34, R134, R200, R205: after an instruction IP is as it was, or the exact sum of IP and the instruction's length, or
the target of a jump: it never wraps. -/
def Obligations.InstructionPointerNeverWraps : Prop :=
  ∀ (i : Instr) (s t : State), exec i s = .next t →
    t.ip = s.ip ∨ t.ip.toInt = s.ip.toInt + i.length ∨
    ∃ a b, (i = .jt a b ∨ i = .jf a b) ∧ s.readable b ∧ t.ip = s.value b

/-- R41: OUTLOG is only ever appended, by one word, and only by the running core's OUT; no host command changes it. -/
def Obligations.OutputLogOnlyGrowsByOut : Prop :=
  (∀ (s t : State) (j : Nat) (k k' : CoreState), step s = .next t → s.coreAt j = some k → t.coreAt j = some k' →
    k'.outLog = k.outLog ∨
    (j = s.before.length ∧ s.busy = true ∧ s.status = .running ∧
      ∃ a, s.fetch = .ok (.out a) ∧ k'.outLog = k.outLog ++ [s.value a])) ∧
  (∀ (s : State) (i j : Nat) (c : HostCmd) (k k' : CoreState),
    s.coreAt j = some k → (s.command i c).2.coreAt j = some k' → k'.outLog = k.outLog)

/-- R40, R76: in a step a core's INQ stays, loses its front word to the running core's IN, or gains words at its end from
the scheduler's transfer. -/
def Obligations.InputQueueIsFirstInFirstOut : Prop :=
  ∀ (s t : State) (j : Nat) (k k' : CoreState), step s = .next t → s.coreAt j = some k → t.coreAt j = some k' →
    k'.inq = k.inq ∨
    (j = s.before.length ∧ s.busy = true ∧ s.status = .running ∧
      ∃ x dst, s.fetch = .ok (.inp dst) ∧ k.inq = x :: k'.inq) ∨
    (s.scheduling = true ∧ ∃ vs, k'.inq = k.inq ++ vs)

/-- R138, R46: a core's step is a function of that core's state and of MEM_LIMIT and OUT_CAP alone: not of the other cores,
the scheduler, IN_CAP or ROUND_CAP. -/
def Obligations.StepDependsOnTheCoreAlone : Prop :=
  ∀ s s' : State, s'.toCoreState = s.toCoreState → s'.params.memLimit = s.params.memLimit →
    s'.params.outCap = s.params.outCap →
    ∃ t t', s.engineStep = .next t ∧ s'.engineStep = .next t' ∧ t'.toCoreState = t.toCoreState

/-- R198, R199: a jump target is taken as it is. A negative target faults at the next fetch with FAULT.ip and FAULT.addr
the target; a target at a cell never written faults with InvalidOpcode; a jump to itself is a one-instruction loop. -/
def Obligations.JumpTargetsAreTakenAsTheyAre : Prop :=
  ∀ (s : State) (i : Instr) (a b : Operand), s.busy = true → s.status = .running → s.fault.valid = false →
    s.fetch = .ok i → s.readable a → s.readable b →
    (i = .jt a b ∧ s.value a ≠ 0 ∨ i = .jf a b ∧ s.value a = 0) →
    ∃ t, step s = .next t ∧ t.ip = s.value b ∧
      (t.ip.toInt < 0 → ∃ u, step t = .next u ∧ u.status = .faulted ∧
        u.fault = { valid := true, reason := some .negativeAddress, ip := some t.ip,
                    addr := some t.ip.toInt, operand := none }) ∧
      (0 ≤ t.ip.toInt → s.mem.read t.ip.toNat = 0 → ∃ u, step t = .next u ∧ u.status = .faulted ∧
        u.fault.reason = some .invalidOpcode ∧ u.fault.ip = some t.ip) ∧
      (t.ip = s.ip → t = s)

/-! ## Invariants -/

/-- The invariant of the whole machine (R9, R31, R37 to R41, R47, R301, R331) is kept by every step. How the block is held is
the model's choice (log entries 1, 4 and 7). -/
def Obligations.EveryStepKeepsTheInvariant : Prop :=
  ∀ s t : State, s.Inv → step s = .next t → t.Inv

/-- The state after reset satisfies it (its parameters and its one core are log entries 2 and 4). -/
def Obligations.ResetSatisfiesTheInvariant : Prop := State.reset.Inv

/-- Every host command, and `schedule()`, keeps it. That no core but the one in front of the engine is BUSY, and that it is core
CUR while the scheduler runs it, rests on the model's choice to refuse `run` and `schedule()` while another run or `schedule()`
is in progress (log entry 9); the layout and the commands' form are the model's choice too (log entries 1, 4, 7 and 10). -/
def Obligations.EveryCommandKeepsTheInvariant : Prop :=
  ∀ s : State, s.Inv → (∀ i c, (s.command i c).2.Inv) ∧ s.schedule.2.Inv

/-- R350, R400, R48: a network is refused exactly where the construction of one of its cores is, with that refusal; one that
is not refused satisfies the invariant, has one core for each sequence of inputs, and starts each core with its own copy of the
program, its inputs, and every other element at its reset value. That `schedule()` is not yet in progress is the model's
field (log entry 7). -/
def Obligations.ConstructionSatisfiesTheInvariant : Prop :=
  ∀ (p : Params) (program init : List Word) (rest : List (List Word)),
    ((∃ s, State.network p program init rest = .ok s) ↔
      ∀ inputs ∈ init :: rest, ∃ k, CoreState.construct p program inputs = .ok k) ∧
    (∀ e, State.network p program init rest = .error e →
      ∃ inputs ∈ init :: rest, CoreState.construct p program inputs = .error e) ∧
    ∀ s, p.wf = true → State.network p program init rest = .ok s →
      s.Inv ∧ s.params = p ∧ s.cur = 0 ∧ s.runs = 0 ∧ s.nstatus = .scheduling ∧ s.scheduling = false ∧
        s.cores = (init :: rest).map (CoreState.constructed (Memory.ofWords 0 program))

/-- From a state that satisfies the invariant a step always answers a next state: no fault or refusal of the model stops
the machine, whatever the words in memory (log entries 3 and 11). -/
def Obligations.TheMachineNeverStops : Prop :=
  ∀ s : State, s.Inv → ∃ t, step s = .next t

/-! ## Memory -/

/-- R31: two memories in canonical form (log entry 1) that read alike at every address are the same data. -/
def Obligations.CanonicalMemoriesThatReadAlikeAreEqual : Prop :=
  ∀ m m' : Memory, m.wf = true → m'.wf = true → (∀ a, m.read a = m'.read a) → m = m'

/-- R62, R63, R70: `MemRead` and `MemWrite`: which addresses fault and with what, and that a write changes the one cell it
names and nothing else. An address the resolver has passed never fails its checks. That the write keeps the canonical form of
the list is the model's choice of memory (log entry 1). -/
def Obligations.MemoryPrimitives : Prop :=
  ∀ (s : State) (a : Int) (v : Word),
    (a < 0 → s.memRead a = .error { reason := .negativeAddress, addr := some a, operand := none } ∧
      s.memWrite a v = .error { reason := .negativeAddress, addr := some a, operand := none }) ∧
    (addrMax < a → s.memRead a = .error { reason := .addressOverflow, addr := some a, operand := none }) ∧
    (0 ≤ a → a ≤ addrMax → s.memRead a = .ok (s.mem.read a.toNat)) ∧
    (0 ≤ a → (s.params.memLimit : Int) ≤ a →
      s.memWrite a v = .error { reason := .capacityExceeded, addr := some a, operand := none }) ∧
    (0 ≤ a → a < s.params.memLimit → s.mem.wf = true →
      ∃ t, s.memWrite a v = .ok t ∧ t.mem.wf = true ∧ t.mem.read a.toNat = v ∧
        (∀ b, b ≠ a.toNat → t.mem.read b = s.mem.read b) ∧ { t with mem := s.mem } = s) ∧
    (∀ (k : Fin 3) (o : Operand) (d : Nat), s.resolveWrite k o = .ok d →
      s.memWrite d v = .ok (s.storeWord d v))

/-- R73, R74, R161, R181: an instruction that stores to the word after itself (ADD, MUL, LT, EQ at IP + 4, IN at IP + 2)
changes what the next step fetches, and has read its own operands before. -/
def Obligations.TheNextFetchSeesTheStore : Prop :=
  (∀ (s : State) (i : Instr) (f : Word → Word → Word) (a b dst : Operand) (d : Nat),
    s.mem.wf = true → i.rrw = some (f, a, b, dst) → s.readable a → s.readable b → s.writableAt dst d →
    s.continues 4 → (d : Int) = s.ip.toInt + 4 →
    ∃ t, exec i s = .next t ∧ t.memRead t.ip.toInt = .ok (f (s.value a) (s.value b))) ∧
  (∀ (s : State) (dst : Operand) (d : Nat) (x : Word) (xs : List Word),
    s.mem.wf = true → s.inq = x :: xs → s.writableAt dst d → s.continues 2 → (d : Int) = s.ip.toInt + 2 →
    ∃ t, exec (.inp dst) s = .next t ∧ t.memRead t.ip.toInt = .ok x)

/-! ## The run loop and the host -/

/-- R140: `run()` on any core of the block: its start, its steps, and its return. A Halted or Faulted core is not touched;
another one is put in front of the engine, Running and BUSY, and no other core changes. That the start and the return are
transitions of their own is the model's choice, as is the place in front of the engine (log entries 4, 6 and 9). -/
def Obligations.RunLoop : Prop :=
  (∀ (s : State) (i : Nat) (k : CoreState), s.coreAt i = some k →
    s.busy = false → s.scheduling = false → k.busy = false →
    ((k.status = .halted ∨ k.status = .faulted) → s.command i .run = (.returned k.status k.fault, s)) ∧
    ((k.status = .running ∨ k.status = .waitingForInput) →
      ∃ t, s.command i .run = (.started, t) ∧ t.toCoreState = { k with status := .running, busy := true } ∧
        t.before.length = i ∧ t.cores = (s.setCore i { k with status := .running, busy := true }).cores ∧
        t.params = s.params ∧ t.cur = s.cur ∧ t.runs = s.runs ∧ t.nstatus = s.nstatus ∧
        t.scheduling = false ∧ (i = s.before.length → t = { s with status := .running, busy := true }))) ∧
  (∀ s : State, s.busy = true →
    (s.status = .running → step s = s.engineStep) ∧
    (s.status ≠ .running → s.scheduling = false → step s = .next { s with busy := false }))

/-- R141: `run()` on a waiting core with INQ still empty executes the IN again, which blocks again: three transitions
later the state is the same (three by the model's choice, log entry 6). `feed` alone resumes nothing. -/
def Obligations.AWaitingCoreBlocksAgain : Prop :=
  ∀ (s : State) (dst : Operand) (d : Nat), s.busy = false → s.scheduling = false →
    s.status = .waitingForInput → s.inq = [] → s.fetch = .ok (.inp dst) → s.writableAt dst d → s.continues 2 →
    (∃ u v, s.command s.before.length .run = (.started, u) ∧ step u = .next v ∧ step v = .next s) ∧
    (∀ vs, (s.command s.before.length (.feed vs)).2.status = .waitingForInput ∧
      (s.command s.before.length (.feed vs)).2.busy = false)

/-- R181, R333: after a `feed` the next `run()` executes the same IN, which takes the first word fed. The start of the run is a
transition of its own by the model's choice (log entry 6). -/
def Obligations.AFedCoreResumes : Prop :=
  ∀ (s : State) (dst : Operand) (d : Nat) (x : Word) (xs : List Word), s.busy = false → s.scheduling = false →
    s.status = .waitingForInput → s.inq = [] → s.fetch = .ok (.inp dst) → s.writableAt dst d → s.continues 2 →
    withinCap s.params.inCap (x :: xs).length = true →
    ∃ u v t, s.command s.before.length (.feed (x :: xs)) = (.ok, u) ∧
      u.command s.before.length .run = (.started, v) ∧ step v = .next t ∧
      t.inq = xs ∧ t.mem = s.mem.write d x ∧ t.ip.toInt = s.ip.toInt + 2 ∧ t.status = .running

/-- R333: `feed` appends all the words to the core's INQ and changes nothing else, or is refused with InputQueueFull and
changes nothing, in whatever STATUS the core is. -/
def Obligations.FeedAppendsAllOrNothing : Prop :=
  ∀ (s : State) (i : Nat) (k : CoreState) (vs : List Word), s.coreAt i = some k → k.busy = false →
    (withinCap s.params.inCap (k.inq.length + vs.length) = true →
      s.command i (.feed vs) = (.ok, s.setCore i { k with inq := k.inq ++ vs })) ∧
    (withinCap s.params.inCap (k.inq.length + vs.length) = false →
      s.command i (.feed vs) = (.refused .inputQueueFull, s))

/-- R334, R335, R336 (with R311, R330): `takeOutput`, `outputs` and `memoryAt`, in every STATUS: what each returns and
leaves, and when it faults the core. The reply is the fault raised, also where FAULT keeps an older one. -/
def Obligations.OutputAndInspectionCommands : Prop :=
  ∀ (s : State) (i : Nat) (k : CoreState), s.coreAt i = some k → k.busy = false →
    (∀ x, k.outLog[k.outCur]? = some x →
      s.command i .takeOutput = (.word x, s.setCore i { k with outCur := k.outCur + 1 })) ∧
    (k.outCur = k.outLog.length →
      s.command i .takeOutput =
        (.faulted { reason := .noOutputAvailable, addr := none, operand := none },
          s.setCore i (k.raise { reason := .noOutputAvailable, addr := none, operand := none }))) ∧
    s.command i .outputs = (.words k.outLog, s) ∧
    (∀ a : Word, 0 ≤ a.toInt → s.command i (.memoryAt a) = (.word (k.mem.read a.toNat), s)) ∧
    (∀ a : Word, a.toInt < 0 →
      s.command i (.memoryAt a) =
        (.faulted { reason := .negativeAddress, addr := some a.toInt, operand := none },
          s.setCore i (k.raise { reason := .negativeAddress, addr := some a.toInt, operand := none })))

/-- R337: `drain()` returns every buffered output and sets OUTCUR to the end, changing nothing else; it leaves the core as
`takeOutput()` issued exactly as many times as there are buffered outputs would, each of those returning the next of them. -/
def Obligations.DrainIsRepeatedTakeOutput : Prop :=
  (∀ (s : State) (i : Nat) (k : CoreState), s.coreAt i = some k → k.busy = false →
    s.command i .drain =
      (.words (k.outLog.drop k.outCur), s.setCore i { k with outCur := k.outLog.length })) ∧
  ∀ (k : CoreState), k.outCur ≤ k.outLog.length →
    k.drain = (.words k.buffered, k.drained) ∧
    (fun k : CoreState => k.takeOutput.2)^[k.buffered.length] k = k.drained ∧
    ∀ n x, k.buffered[n]? = some x →
      ((fun k : CoreState => k.takeOutput.2)^[n] k).takeOutput.1 = .word x

/-- R331, R332: a command to a core whose BUSY is true is refused with Busy and has no effect; while BUSY is false no
command but `run` is refused with Busy. -/
def Obligations.BusyCoresRefuseCommands : Prop :=
  ∀ (s : State) (i : Nat) (k : CoreState) (c : HostCmd), s.coreAt i = some k →
    (k.busy = true → s.command i c = (.refused .busy, s)) ∧
    (k.busy = false → c ≠ .run → (s.command i c).1 ≠ .refused .busy)

/-! ## The network -/

/-- R352: a transfer moves core `i`'s buffered outputs, in order, to the end of the next core's INQ, marks them taken, and
touches no third core; with one core it feeds itself; where the next core's INQ would overflow the network fails, nothing is
appended, and the drained outputs stay taken (log entry 16). -/
def Obligations.TransferMovesTheBufferedOutputs : Prop :=
  ∀ (s : State) (i : Nat) (k t : CoreState), s.coreAt i = some k →
    (s.setCore i k.drained).coreAt ((i + 1) % s.netN) = some t →
    (withinCap s.params.inCap (t.inq.length + k.buffered.length) = true →
      (s.transfer i).coreAt ((i + 1) % s.netN) = some { t with inq := t.inq ++ k.buffered } ∧
      (i ≠ (i + 1) % s.netN → (s.transfer i).coreAt i = some k.drained) ∧
      (∀ j, j ≠ i → j ≠ (i + 1) % s.netN → (s.transfer i).coreAt j = s.coreAt j) ∧
      (s.transfer i).nstatus = s.nstatus) ∧
    (withinCap s.params.inCap (t.inq.length + k.buffered.length) = false →
      (s.transfer i).nstatus = .failed .queueOverflow ∧
      (s.transfer i).cores = (s.setCore i k.drained).cores)

/-- R351, first half: between runs the scheduler ends when NSTATUS is settled, fails at the round cap, and otherwise runs
core CUR; the run of a Halted or Faulted core returns at once, and its turn ends in the same step. How `schedule()` is cut into
steps is the model's choice (log entry 7), and what a failed transfer leaves is log entry 16. -/
def Obligations.SchedulerRunsTheCurrentCore : Prop :=
  ∀ s : State, s.busy = false → s.scheduling = true →
    (s.nstatus ≠ .scheduling → step s = .next { s with scheduling := false }) ∧
    (s.nstatus = .scheduling → ∀ c, s.params.roundCap = some c → s.runs = c * s.netN →
      step s = .next { s with nstatus := .failed .roundCapExceeded }) ∧
    (s.nstatus = .scheduling → (∀ c, s.params.roundCap = some c → s.runs ≠ c * s.netN) →
      ∀ k, s.coreAt s.cur = some k →
      ((k.status = .running ∨ k.status = .waitingForInput) →
        ∃ t, step s = .next t ∧ t.toCoreState = { k with status := .running, busy := true } ∧
          t.before.length = s.cur ∧ t.netN = s.netN ∧ (∀ j, j ≠ s.cur → t.coreAt j = s.coreAt j) ∧
          t.runs = s.runs ∧ t.cur = s.cur ∧ t.nstatus = .scheduling ∧ t.scheduling = true) ∧
      (k.status = .halted → ∃ t, step s = .next t ∧ s.turnEndsIn t) ∧
      (k.status = .faulted →
        ∃ t, step s = .next t ∧ t.runs = s.runs + 1 ∧ t.cur = s.cur ∧ t.cores = s.cores ∧
          t.nstatus = .failed (.coreFault s.cur k.fault)))

/-- R351, second half: when a run of the scheduler returns, RUNS grows by one; a core fault fails the network there;
otherwise the transfer is made, NSTATUS follows from it and from the all-halted test, and CUR moves on, in a cycle. All of it
is one step by the model's choice (log entry 7); that CUR moves on and the drained outputs stay taken after a transfer that
overflows is log entry 16. -/
def Obligations.SchedulerMovesOnAfterARun : Prop :=
  ∀ s : State, s.busy = true → s.status ≠ .running → s.scheduling = true → s.nstatus = .scheduling →
    s.before.length = s.cur →
    ∃ t, step s = .next t ∧
      (s.status = .faulted → t.runs = s.runs + 1 ∧ t.nstatus = .failed (.coreFault s.cur s.fault) ∧
        t.cur = s.cur ∧ t.cores = (s.setBusy false).cores) ∧
      (s.status ≠ .faulted → (s.setBusy false).turnEndsIn t)

/-- R353: the answer is the last word of the last core's OUTLOG, taken or not; with no output it is the failure NoAnswer. -/
def Obligations.AnswerIsTheLastCoresLastOutput : Prop :=
  ∀ (s : State) (ks : List CoreState) (k : CoreState), s.cores = ks ++ [k] →
    (∀ l x, k.outLog = l ++ [x] → s.answer = .done x) ∧
    (k.outLog = [] → s.answer = .failed .noAnswer)

/-- R400, R401, R403: construction: when it is refused, and otherwise a memory that holds the program from address 0 on and
reads as 0 past it. -/
def Obligations.ConstructionCopiesTheProgram : Prop :=
  ∀ (p : Params) (program inputs : List Word),
    (p.memLimit < program.length → CoreState.construct p program inputs = .error .programTooLong) ∧
    (program.length ≤ p.memLimit → withinCap p.inCap inputs.length = false →
      CoreState.construct p program inputs = .error .inputQueueFull) ∧
    (program.length ≤ p.memLimit → withinCap p.inCap inputs.length = true →
      ∃ k, CoreState.construct p program inputs = .ok k ∧ (∀ a, k.mem.read a = program.getD a 0) ∧
        k.ip = 0 ∧ k.rb = 0 ∧ k.inq = inputs ∧ k.outLog = [] ∧ k.outCur = 0 ∧ k.status = .running ∧
        k.fault = FaultRecord.none ∧ k.busy = false)
end

