-- ==== Sys2Proof/Laws/Decode.lean ====
section
/-! SUPPORT. The small laws of the decoder and the encoder (spec/30_encoding.md, R90 to R102). -/

namespace Sys2Proof

/-! ## Digits and codes -/

@[simp] theorem Mode.ofDigit_digit (m : Mode) : Mode.ofDigit m.digit = some m := by
  cases m <;> rfl

theorem Mode.digit_le (m : Mode) : m.digit ≤ 2 := by
  cases m <;> decide

theorem Mode.ofDigit_eq_some {n : Nat} {m : Mode} : Mode.ofDigit n = some m ↔ n = m.digit := by
  unfold Mode.ofDigit
  constructor
  · intro h
    split at h
    · next hn => cases h; exact hn
    · split at h
      · next hn => cases h; exact hn
      · split at h
        · next hn => cases h; exact hn
        · cases h
  · rintro rfl
    cases m <;> rfl

theorem Mode.ofDigit_eq_none {n : Nat} : Mode.ofDigit n = none ↔ 2 < n := by
  unfold Mode.ofDigit
  split
  · simp; omega
  · split
    · simp; omega
    · split
      · simp; omega
      · simp; omega

@[simp] theorem Opcode.ofCode_code (op : Opcode) : Opcode.ofCode op.code = some op := by
  cases op <;> rfl

theorem Opcode.code_lt (op : Opcode) : op.code < 100 := by
  cases op <;> decide

theorem Opcode.ofCode_eq_some {n : Nat} {op : Opcode} : Opcode.ofCode n = some op ↔ n = op.code := by
  constructor
  · intro h
    unfold Opcode.ofCode at h
    repeat' (split at h)
    all_goals first | (cases h; assumption) | cases h
  · rintro rfl
    exact Opcode.ofCode_code op

/-- R100: the ten opcode values, and no other. -/
theorem Opcode.ofCode_eq_none {n : Nat} :
    Opcode.ofCode n = none ↔ n ∉ [1, 2, 3, 4, 5, 6, 7, 8, 9, 99] := by
  simp only [List.mem_cons, List.not_mem_nil, or_false, not_or]
  constructor
  · intro h
    refine ⟨?_, ?_, ?_, ?_, ?_, ?_, ?_, ?_, ?_, ?_⟩ <;> (rintro rfl; exact absurd h (by decide))
  · rintro ⟨h1, h2, h3, h4, h5, h6, h7, h8, h9, h10⟩
    simp [Opcode.ofCode, *]

theorem Opcode.length_pos (op : Opcode) : 1 ≤ op.length := by
  cases op <;> decide

theorem Opcode.length_le (op : Opcode) : op.length ≤ maxLength := by
  cases op <;> decide

/-! ## The head word -/

/-- The word of a head's five digits (R90). -/
def Head.value (h : Head) : Nat :=
  h.op.code + 100 * h.a.digit + 1000 * h.b.digit + 10000 * h.c.digit

/-- R90, R95: a non-negative word decodes to a head exactly when its low five digits are that head's. -/
theorem decodeHead_ok {w : Word} {h : Head} :
    decodeHead w = .ok h ↔ 0 ≤ w.toInt ∧ w.toNat % 100000 = h.value := by
  obtain ⟨op, a, b, c⟩ := h
  have e2 : digit 2 w = w.toNat / 100 % 10 := rfl
  have e3 : digit 3 w = w.toNat / 1000 % 10 := rfl
  have e4 : digit 4 w = w.toNat / 10000 % 10 := rfl
  have ho := op.code_lt
  have ha := a.digit_le
  have hb := b.digit_le
  have hc := c.digit_le
  have key : w.toNat % 100000 = Head.value ⟨op, a, b, c⟩ ↔
      w.toNat % 100 = op.code ∧ digit 2 w = a.digit ∧ digit 3 w = b.digit ∧ digit 4 w = c.digit := by
    simp only [Head.value, e2, e3, e4]
    omega
  rw [key, ← Opcode.ofCode_eq_some, ← Mode.ofDigit_eq_some, ← Mode.ofDigit_eq_some,
    ← Mode.ofDigit_eq_some]
  unfold decodeHead
  by_cases hneg : w.toInt < 0
  · simp [hneg]
  · rw [if_neg hneg]
    cases Opcode.ofCode (w.toNat % 100) with
    | none => simp
    | some op' =>
      cases Mode.ofDigit (digit 2 w) <;> cases Mode.ofDigit (digit 3 w) <;>
        cases Mode.ofDigit (digit 4 w) <;> simp
      omega

/-- The decoder of one word never asks for more words. -/
theorem decodeHead_ne_truncated (w : Word) : decodeHead w ≠ .error .truncated := by
  unfold decodeHead
  split
  · simp
  · split
    · simp
    · split <;> simp

/-! ## Instructions -/

theorem assemble_opcode (h : Head) (r0 r1 r2 : Word) : (assemble h r0 r1 r2).opcode = h.op := by
  obtain ⟨op, a, b, c⟩ := h
  cases op <;> rfl

theorem assemble_length (h : Head) (r0 r1 r2 : Word) : (assemble h r0 r1 r2).length = h.op.length := by
  rw [Instr.length, assemble_opcode]

/-- R102: a canonical instruction word has at most five digits. -/
theorem Instr.headValue_le (i : Instr) : i.headValue ≤ 22299 := by
  have key : ∀ o : Operand, o.mode.digit ≤ 2 := fun o => o.mode.digit_le
  have hc := i.opcode.code_lt
  cases i with
  | add a b dst => have := key a; have := key b; have := key dst; simp [Instr.headValue, Instr.operands, modeDigits]; omega
  | mul a b dst => have := key a; have := key b; have := key dst; simp [Instr.headValue, Instr.operands, modeDigits]; omega
  | inp dst => have := key dst; simp [Instr.headValue, Instr.operands, modeDigits]; omega
  | out a => have := key a; simp [Instr.headValue, Instr.operands, modeDigits]; omega
  | jt a b => have := key a; have := key b; simp [Instr.headValue, Instr.operands, modeDigits]; omega
  | jf a b => have := key a; have := key b; simp [Instr.headValue, Instr.operands, modeDigits]; omega
  | lt a b dst => have := key a; have := key b; have := key dst; simp [Instr.headValue, Instr.operands, modeDigits]; omega
  | eq a b dst => have := key a; have := key b; have := key dst; simp [Instr.headValue, Instr.operands, modeDigits]; omega
  | arb a => have := key a; simp [Instr.headValue, Instr.operands, modeDigits]; omega
  | hlt => decide

end Sys2Proof
end

