-- ==== Sys2Proof/Laws/State.lean ====
section
/-! SUPPORT. The fields of a state after each named update: one lemma per field per update, so that no proof unfolds a
record update. -/

namespace Sys2Proof.Machine

variable (s : State)


/-! ## setIp -/

@[simp] theorem State.setIp_mem (v : Word) : (s.setIp v).mem = s.mem := rfl
@[simp] theorem State.setIp_ip (v : Word) : (s.setIp v).ip = v := rfl
@[simp] theorem State.setIp_rb (v : Word) : (s.setIp v).rb = s.rb := rfl
@[simp] theorem State.setIp_inq (v : Word) : (s.setIp v).inq = s.inq := rfl
@[simp] theorem State.setIp_outLog (v : Word) : (s.setIp v).outLog = s.outLog := rfl
@[simp] theorem State.setIp_outCur (v : Word) : (s.setIp v).outCur = s.outCur := rfl
@[simp] theorem State.setIp_status (v : Word) : (s.setIp v).status = s.status := rfl
@[simp] theorem State.setIp_fault (v : Word) : (s.setIp v).fault = s.fault := rfl
@[simp] theorem State.setIp_busy (v : Word) : (s.setIp v).busy = s.busy := rfl
@[simp] theorem State.setIp_params (v : Word) : (s.setIp v).params = s.params := rfl
@[simp] theorem State.setIp_before (v : Word) : (s.setIp v).before = s.before := rfl
@[simp] theorem State.setIp_after (v : Word) : (s.setIp v).after = s.after := rfl
@[simp] theorem State.setIp_cur (v : Word) : (s.setIp v).cur = s.cur := rfl
@[simp] theorem State.setIp_runs (v : Word) : (s.setIp v).runs = s.runs := rfl
@[simp] theorem State.setIp_nstatus (v : Word) : (s.setIp v).nstatus = s.nstatus := rfl
@[simp] theorem State.setIp_scheduling (v : Word) : (s.setIp v).scheduling = s.scheduling := rfl

/-! ## setRb -/

@[simp] theorem State.setRb_mem (v : Word) : (s.setRb v).mem = s.mem := rfl
@[simp] theorem State.setRb_ip (v : Word) : (s.setRb v).ip = s.ip := rfl
@[simp] theorem State.setRb_rb (v : Word) : (s.setRb v).rb = v := rfl
@[simp] theorem State.setRb_inq (v : Word) : (s.setRb v).inq = s.inq := rfl
@[simp] theorem State.setRb_outLog (v : Word) : (s.setRb v).outLog = s.outLog := rfl
@[simp] theorem State.setRb_outCur (v : Word) : (s.setRb v).outCur = s.outCur := rfl
@[simp] theorem State.setRb_status (v : Word) : (s.setRb v).status = s.status := rfl
@[simp] theorem State.setRb_fault (v : Word) : (s.setRb v).fault = s.fault := rfl
@[simp] theorem State.setRb_busy (v : Word) : (s.setRb v).busy = s.busy := rfl
@[simp] theorem State.setRb_params (v : Word) : (s.setRb v).params = s.params := rfl
@[simp] theorem State.setRb_before (v : Word) : (s.setRb v).before = s.before := rfl
@[simp] theorem State.setRb_after (v : Word) : (s.setRb v).after = s.after := rfl
@[simp] theorem State.setRb_cur (v : Word) : (s.setRb v).cur = s.cur := rfl
@[simp] theorem State.setRb_runs (v : Word) : (s.setRb v).runs = s.runs := rfl
@[simp] theorem State.setRb_nstatus (v : Word) : (s.setRb v).nstatus = s.nstatus := rfl
@[simp] theorem State.setRb_scheduling (v : Word) : (s.setRb v).scheduling = s.scheduling := rfl

/-! ## setStatus -/

@[simp] theorem State.setStatus_mem (v : Status) : (s.setStatus v).mem = s.mem := rfl
@[simp] theorem State.setStatus_ip (v : Status) : (s.setStatus v).ip = s.ip := rfl
@[simp] theorem State.setStatus_rb (v : Status) : (s.setStatus v).rb = s.rb := rfl
@[simp] theorem State.setStatus_inq (v : Status) : (s.setStatus v).inq = s.inq := rfl
@[simp] theorem State.setStatus_outLog (v : Status) : (s.setStatus v).outLog = s.outLog := rfl
@[simp] theorem State.setStatus_outCur (v : Status) : (s.setStatus v).outCur = s.outCur := rfl
@[simp] theorem State.setStatus_status (v : Status) : (s.setStatus v).status = v := rfl
@[simp] theorem State.setStatus_fault (v : Status) : (s.setStatus v).fault = s.fault := rfl
@[simp] theorem State.setStatus_busy (v : Status) : (s.setStatus v).busy = s.busy := rfl
@[simp] theorem State.setStatus_params (v : Status) : (s.setStatus v).params = s.params := rfl
@[simp] theorem State.setStatus_before (v : Status) : (s.setStatus v).before = s.before := rfl
@[simp] theorem State.setStatus_after (v : Status) : (s.setStatus v).after = s.after := rfl
@[simp] theorem State.setStatus_cur (v : Status) : (s.setStatus v).cur = s.cur := rfl
@[simp] theorem State.setStatus_runs (v : Status) : (s.setStatus v).runs = s.runs := rfl
@[simp] theorem State.setStatus_nstatus (v : Status) : (s.setStatus v).nstatus = s.nstatus := rfl
@[simp] theorem State.setStatus_scheduling (v : Status) : (s.setStatus v).scheduling = s.scheduling := rfl

/-! ## setBusy -/

@[simp] theorem State.setBusy_mem (v : Bool) : (s.setBusy v).mem = s.mem := rfl
@[simp] theorem State.setBusy_ip (v : Bool) : (s.setBusy v).ip = s.ip := rfl
@[simp] theorem State.setBusy_rb (v : Bool) : (s.setBusy v).rb = s.rb := rfl
@[simp] theorem State.setBusy_inq (v : Bool) : (s.setBusy v).inq = s.inq := rfl
@[simp] theorem State.setBusy_outLog (v : Bool) : (s.setBusy v).outLog = s.outLog := rfl
@[simp] theorem State.setBusy_outCur (v : Bool) : (s.setBusy v).outCur = s.outCur := rfl
@[simp] theorem State.setBusy_status (v : Bool) : (s.setBusy v).status = s.status := rfl
@[simp] theorem State.setBusy_fault (v : Bool) : (s.setBusy v).fault = s.fault := rfl
@[simp] theorem State.setBusy_busy (v : Bool) : (s.setBusy v).busy = v := rfl
@[simp] theorem State.setBusy_params (v : Bool) : (s.setBusy v).params = s.params := rfl
@[simp] theorem State.setBusy_before (v : Bool) : (s.setBusy v).before = s.before := rfl
@[simp] theorem State.setBusy_after (v : Bool) : (s.setBusy v).after = s.after := rfl
@[simp] theorem State.setBusy_cur (v : Bool) : (s.setBusy v).cur = s.cur := rfl
@[simp] theorem State.setBusy_runs (v : Bool) : (s.setBusy v).runs = s.runs := rfl
@[simp] theorem State.setBusy_nstatus (v : Bool) : (s.setBusy v).nstatus = s.nstatus := rfl
@[simp] theorem State.setBusy_scheduling (v : Bool) : (s.setBusy v).scheduling = s.scheduling := rfl

/-! ## setInq -/

@[simp] theorem State.setInq_mem (v : List Word) : (s.setInq v).mem = s.mem := rfl
@[simp] theorem State.setInq_ip (v : List Word) : (s.setInq v).ip = s.ip := rfl
@[simp] theorem State.setInq_rb (v : List Word) : (s.setInq v).rb = s.rb := rfl
@[simp] theorem State.setInq_inq (v : List Word) : (s.setInq v).inq = v := rfl
@[simp] theorem State.setInq_outLog (v : List Word) : (s.setInq v).outLog = s.outLog := rfl
@[simp] theorem State.setInq_outCur (v : List Word) : (s.setInq v).outCur = s.outCur := rfl
@[simp] theorem State.setInq_status (v : List Word) : (s.setInq v).status = s.status := rfl
@[simp] theorem State.setInq_fault (v : List Word) : (s.setInq v).fault = s.fault := rfl
@[simp] theorem State.setInq_busy (v : List Word) : (s.setInq v).busy = s.busy := rfl
@[simp] theorem State.setInq_params (v : List Word) : (s.setInq v).params = s.params := rfl
@[simp] theorem State.setInq_before (v : List Word) : (s.setInq v).before = s.before := rfl
@[simp] theorem State.setInq_after (v : List Word) : (s.setInq v).after = s.after := rfl
@[simp] theorem State.setInq_cur (v : List Word) : (s.setInq v).cur = s.cur := rfl
@[simp] theorem State.setInq_runs (v : List Word) : (s.setInq v).runs = s.runs := rfl
@[simp] theorem State.setInq_nstatus (v : List Word) : (s.setInq v).nstatus = s.nstatus := rfl
@[simp] theorem State.setInq_scheduling (v : List Word) : (s.setInq v).scheduling = s.scheduling := rfl

/-! ## appendOut -/

@[simp] theorem State.appendOut_mem (v : Word) : (s.appendOut v).mem = s.mem := rfl
@[simp] theorem State.appendOut_ip (v : Word) : (s.appendOut v).ip = s.ip := rfl
@[simp] theorem State.appendOut_rb (v : Word) : (s.appendOut v).rb = s.rb := rfl
@[simp] theorem State.appendOut_inq (v : Word) : (s.appendOut v).inq = s.inq := rfl
@[simp] theorem State.appendOut_outLog (v : Word) : (s.appendOut v).outLog = s.outLog ++ [v] := rfl
@[simp] theorem State.appendOut_outCur (v : Word) : (s.appendOut v).outCur = s.outCur := rfl
@[simp] theorem State.appendOut_status (v : Word) : (s.appendOut v).status = s.status := rfl
@[simp] theorem State.appendOut_fault (v : Word) : (s.appendOut v).fault = s.fault := rfl
@[simp] theorem State.appendOut_busy (v : Word) : (s.appendOut v).busy = s.busy := rfl
@[simp] theorem State.appendOut_params (v : Word) : (s.appendOut v).params = s.params := rfl
@[simp] theorem State.appendOut_before (v : Word) : (s.appendOut v).before = s.before := rfl
@[simp] theorem State.appendOut_after (v : Word) : (s.appendOut v).after = s.after := rfl
@[simp] theorem State.appendOut_cur (v : Word) : (s.appendOut v).cur = s.cur := rfl
@[simp] theorem State.appendOut_runs (v : Word) : (s.appendOut v).runs = s.runs := rfl
@[simp] theorem State.appendOut_nstatus (v : Word) : (s.appendOut v).nstatus = s.nstatus := rfl
@[simp] theorem State.appendOut_scheduling (v : Word) : (s.appendOut v).scheduling = s.scheduling := rfl

/-! ## storeWord -/

@[simp] theorem State.storeWord_mem (a : Nat) (v : Word) : (s.storeWord a v).mem = s.mem.write a v := rfl
@[simp] theorem State.storeWord_ip (a : Nat) (v : Word) : (s.storeWord a v).ip = s.ip := rfl
@[simp] theorem State.storeWord_rb (a : Nat) (v : Word) : (s.storeWord a v).rb = s.rb := rfl
@[simp] theorem State.storeWord_inq (a : Nat) (v : Word) : (s.storeWord a v).inq = s.inq := rfl
@[simp] theorem State.storeWord_outLog (a : Nat) (v : Word) : (s.storeWord a v).outLog = s.outLog := rfl
@[simp] theorem State.storeWord_outCur (a : Nat) (v : Word) : (s.storeWord a v).outCur = s.outCur := rfl
@[simp] theorem State.storeWord_status (a : Nat) (v : Word) : (s.storeWord a v).status = s.status := rfl
@[simp] theorem State.storeWord_fault (a : Nat) (v : Word) : (s.storeWord a v).fault = s.fault := rfl
@[simp] theorem State.storeWord_busy (a : Nat) (v : Word) : (s.storeWord a v).busy = s.busy := rfl
@[simp] theorem State.storeWord_params (a : Nat) (v : Word) : (s.storeWord a v).params = s.params := rfl
@[simp] theorem State.storeWord_before (a : Nat) (v : Word) : (s.storeWord a v).before = s.before := rfl
@[simp] theorem State.storeWord_after (a : Nat) (v : Word) : (s.storeWord a v).after = s.after := rfl
@[simp] theorem State.storeWord_cur (a : Nat) (v : Word) : (s.storeWord a v).cur = s.cur := rfl
@[simp] theorem State.storeWord_runs (a : Nat) (v : Word) : (s.storeWord a v).runs = s.runs := rfl
@[simp] theorem State.storeWord_nstatus (a : Nat) (v : Word) : (s.storeWord a v).nstatus = s.nstatus := rfl
@[simp] theorem State.storeWord_scheduling (a : Nat) (v : Word) : (s.storeWord a v).scheduling = s.scheduling := rfl

/-! ## raise -/

@[simp] theorem State.raise_mem (c : FaultCause) : (s.raise c).mem = s.mem := rfl
@[simp] theorem State.raise_ip (c : FaultCause) : (s.raise c).ip = s.ip := rfl
@[simp] theorem State.raise_rb (c : FaultCause) : (s.raise c).rb = s.rb := rfl
@[simp] theorem State.raise_inq (c : FaultCause) : (s.raise c).inq = s.inq := rfl
@[simp] theorem State.raise_outLog (c : FaultCause) : (s.raise c).outLog = s.outLog := rfl
@[simp] theorem State.raise_outCur (c : FaultCause) : (s.raise c).outCur = s.outCur := rfl
@[simp] theorem State.raise_busy (c : FaultCause) : (s.raise c).busy = s.busy := rfl
@[simp] theorem State.raise_params (c : FaultCause) : (s.raise c).params = s.params := rfl
@[simp] theorem State.raise_before (c : FaultCause) : (s.raise c).before = s.before := rfl
@[simp] theorem State.raise_after (c : FaultCause) : (s.raise c).after = s.after := rfl
@[simp] theorem State.raise_cur (c : FaultCause) : (s.raise c).cur = s.cur := rfl
@[simp] theorem State.raise_runs (c : FaultCause) : (s.raise c).runs = s.runs := rfl
@[simp] theorem State.raise_nstatus (c : FaultCause) : (s.raise c).nstatus = s.nstatus := rfl
@[simp] theorem State.raise_scheduling (c : FaultCause) : (s.raise c).scheduling = s.scheduling := rfl
@[simp] theorem State.raise_status (c : FaultCause) : (s.raise c).status = .faulted := rfl
theorem State.raise_fault (c : FaultCause) :
    (s.raise c).fault = if s.fault.valid then s.fault
      else { valid := true, reason := some c.reason, ip := some s.ip, addr := c.addr, operand := c.operand } := rfl

/-! ## raise on one core -/

variable (k : CoreState)

@[simp] theorem CoreState.raise_mem (c : FaultCause) : (k.raise c).mem = k.mem := rfl
@[simp] theorem CoreState.raise_ip (c : FaultCause) : (k.raise c).ip = k.ip := rfl
@[simp] theorem CoreState.raise_rb (c : FaultCause) : (k.raise c).rb = k.rb := rfl
@[simp] theorem CoreState.raise_inq (c : FaultCause) : (k.raise c).inq = k.inq := rfl
@[simp] theorem CoreState.raise_outLog (c : FaultCause) : (k.raise c).outLog = k.outLog := rfl
@[simp] theorem CoreState.raise_outCur (c : FaultCause) : (k.raise c).outCur = k.outCur := rfl
@[simp] theorem CoreState.raise_busy (c : FaultCause) : (k.raise c).busy = k.busy := rfl
@[simp] theorem CoreState.raise_status (c : FaultCause) : (k.raise c).status = .faulted := rfl
theorem CoreState.raise_fault (c : FaultCause) :
    (k.raise c).fault = if k.fault.valid then k.fault
      else { valid := true, reason := some c.reason, ip := some k.ip, addr := c.addr, operand := c.operand } := rfl
theorem State.raise_toCoreState (c : FaultCause) :
    (s.raise c).toCoreState = s.toCoreState.raise c := rfl

/-! ## fail -/

@[simp] theorem CoreState.fail_reply (c : FaultCause) : (k.fail c).1 = .faulted c := rfl
@[simp] theorem CoreState.fail_core (c : FaultCause) : (k.fail c).2 = k.raise c := rfl

/-! ## drained -/

@[simp] theorem CoreState.drained_mem : k.drained.mem = k.mem := rfl
@[simp] theorem CoreState.drained_ip : k.drained.ip = k.ip := rfl
@[simp] theorem CoreState.drained_rb : k.drained.rb = k.rb := rfl
@[simp] theorem CoreState.drained_inq : k.drained.inq = k.inq := rfl
@[simp] theorem CoreState.drained_outLog : k.drained.outLog = k.outLog := rfl
@[simp] theorem CoreState.drained_outCur : k.drained.outCur = k.outLog.length := rfl
@[simp] theorem CoreState.drained_status : k.drained.status = k.status := rfl
@[simp] theorem CoreState.drained_fault : k.drained.fault = k.fault := rfl
@[simp] theorem CoreState.drained_busy : k.drained.busy = k.busy := rfl

/-! ## conclude -/

@[simp] theorem State.conclude_ok (t : State) : s.conclude (.ok t) = .next t := rfl
@[simp] theorem State.conclude_error (c : FaultCause) : s.conclude (.error c) = .next (s.raise c) := rfl

/-- An instruction ends in its effect or in the fault action, and never stops the machine (R136, R137). -/
theorem State.conclude_next {r : Except FaultCause State} {t : State} (h : s.conclude r = .next t) :
    r = .ok t ∨ ∃ c, r = .error c ∧ t = s.raise c := by
  cases r with
  | ok u => exact .inl (by simpa using h)
  | error c => exact .inr ⟨c, rfl, by simpa using h.symm⟩

end Sys2Proof.Machine
end

