-- ==== Sys2Proof/Laws/Operands.lean ====
section
/-! SUPPORT. One lemma for each shared operation of the resolver and of `seqNext`, saying everything it can answer
(spec/30_encoding.md, R110, R111; spec/40_execution_cycle.md, R134). -/

namespace Sys2Proof.Machine

/-! ## Words as integers -/

theorem toInt_le_max (w : Word) : w.toInt ≤ int64Max := by
  have := BitVec.toInt_lt (x := w)
  simp only [int64Max]
  omega

theorem min_le_toInt (w : Word) : int64Min ≤ w.toInt := by
  have := BitVec.le_toInt (x := w)
  simp only [int64Min]
  omega

/-- R11: a value in range is its own wrap. -/
theorem toInt_wrap64 {x : Int} (h1 : int64Min ≤ x) (h2 : x ≤ int64Max) : (wrap64 x).toInt = x := by
  simp only [wrap64, BitVec.toInt_ofInt, int64Min, int64Max] at *
  exact Int.bmod_eq_of_le (by omega) (by omega)

@[simp] theorem wrap64_toInt (w : Word) : wrap64 w.toInt = w := by simp [wrap64]

theorem toNat_of_nonneg {w : Word} (h : 0 ≤ w.toInt) : (w.toNat : Int) = w.toInt := by
  rw [BitVec.toInt_eq_toNat_cond] at *
  split at h <;> split <;> omega

/-! ## Addresses -/

@[simp] theorem State.effAddr_position (s : State) (r : Word) :
    s.effAddr { mode := .position, raw := r } = some r.toInt := rfl
@[simp] theorem State.effAddr_immediate (s : State) (r : Word) :
    s.effAddr { mode := .immediate, raw := r } = none := rfl
@[simp] theorem State.effAddr_relative (s : State) (r : Word) :
    s.effAddr { mode := .relative, raw := r } = some (s.rb.toInt + r.toInt) := rfl

/-! ## The resolver -/

theorem State.resolveRead_ok {s : State} {k : Fin 3} {o : Operand} {v : Word} :
    s.resolveRead k o = .ok v ↔ s.readable o ∧ v = s.value o := by
  unfold State.resolveRead State.readable State.value
  cases s.effAddr o with
  | none => simp [eq_comm]
  | some a =>
    simp only [Option.mem_def, Option.some.injEq, forall_eq']
    split
    · simp; omega
    · split
      · simp; omega
      · simp only [Except.ok.injEq, eq_comm]
        constructor
        · intro h; exact ⟨by omega, h⟩
        · exact fun h => h.2

/-- R110: the faults of a read operand. -/
theorem State.resolveRead_error {s : State} {k : Fin 3} {o : Operand} {c : FaultCause}
    (h : s.resolveRead k o = .error c) :
    ∃ a, s.effAddr o = some a ∧
      (a < 0 ∧ c = { reason := .negativeAddress, addr := some a, operand := some k } ∨
        addrMax < a ∧ c = { reason := .addressOverflow, addr := some a, operand := some k }) := by
  unfold State.resolveRead at h
  split at h
  · cases h
  · next a ha =>
    refine ⟨a, ha, ?_⟩
    split at h
    · next hlt => exact .inl ⟨hlt, by simpa using h.symm⟩
    · split at h
      · next hlt => exact .inr ⟨hlt, by simpa using h.symm⟩
      · cases h

theorem State.resolveWrite_ok {s : State} {k : Fin 3} {o : Operand} {d : Nat} :
    s.resolveWrite k o = .ok d ↔ s.writableAt o d := by
  unfold State.resolveWrite State.writableAt
  cases s.effAddr o with
  | none => simp
  | some a =>
    simp only [Option.some.injEq]
    split
    · simp [addrMax] at *; omega
    · split
      · simp [addrMax] at *; omega
      · split
        · simp [addrMax] at *; omega
        · simp only [Except.ok.injEq, addrMax] at *
          omega

/-- R111: the faults of a write operand, in the order their checks stand. -/
theorem State.resolveWrite_error {s : State} {k : Fin 3} {o : Operand} {c : FaultCause}
    (h : s.resolveWrite k o = .error c) :
    s.effAddr o = none ∧ c = { reason := .invalidWriteMode, addr := none, operand := some k } ∨
    ∃ a, s.effAddr o = some a ∧
      (a < 0 ∧ c = { reason := .negativeAddress, addr := some a, operand := some k } ∨
        addrMax < a ∧ c = { reason := .addressOverflow, addr := some a, operand := some k } ∨
        ((s.params.memLimit : Int) ≤ a ∧ a ≤ addrMax) ∧
          c = { reason := .capacityExceeded, addr := some a, operand := some k }) := by
  unfold State.resolveWrite at h
  split at h
  · next hn => exact .inl ⟨hn, by simpa using h.symm⟩
  · next a ha =>
    refine .inr ⟨a, ha, ?_⟩
    split at h
    · next hlt => exact .inl ⟨hlt, by simpa using h.symm⟩
    · split at h
      · next hlt => exact .inr (.inl ⟨hlt, by simpa using h.symm⟩)
      · split at h
        · next hle => exact .inr (.inr ⟨⟨hle, by omega⟩, by simpa using h.symm⟩)
        · cases h

/-- R63: an address that has passed the resolver passes the checks of `MemWrite`. -/
theorem State.memWrite_of_resolveWrite {s : State} {k : Fin 3} {o : Operand} {d : Nat}
    (h : s.resolveWrite k o = .ok d) (v : Word) : s.memWrite d v = .ok (s.storeWord d v) := by
  obtain ⟨-, -, hd⟩ := State.resolveWrite_ok.1 h
  unfold State.memWrite
  rw [if_neg (by omega), if_neg (by omega), Int.toNat_natCast]

/-! ## The next instruction -/

theorem State.seqNext_ok {s : State} {len : Nat} {n : Word} :
    s.seqNext len = .ok n ↔ s.continues len ∧ n = wrap64 (s.ip.toInt + len) := by
  unfold State.seqNext State.continues
  simp only
  split
  · simp; omega
  · simp only [Except.ok.injEq, eq_comm]
    constructor
    · intro h; exact ⟨by omega, h⟩
    · exact fun h => h.2

theorem State.seqNext_error {s : State} {len : Nat} {c : FaultCause} (h : s.seqNext len = .error c) :
    int64Max < s.ip.toInt + len ∧
      c = { reason := .addressOverflow, addr := some (s.ip.toInt + len), operand := none } := by
  unfold State.seqNext at h
  simp only at h
  split at h
  · next hlt => exact ⟨hlt, by simpa using h.symm⟩
  · cases h

/-- R134: the sequential next IP is the exact sum. -/
theorem State.toInt_next {s : State} {len : Nat} (h : s.continues len) :
    (wrap64 (s.ip.toInt + len)).toInt = s.ip.toInt + len := by
  have := min_le_toInt s.ip
  exact toInt_wrap64 (by omega) h

end Sys2Proof.Machine
end

