-- ==== Sys2Proof/Laws/Instr.lean ====
section
/-! SUPPORT. What each instruction can do, said once: its effect lemma gives every state it answers, and `exec_next` joins
them (spec/40_execution_cycle.md, R136, R137). Later proofs cite these and never unfold an instruction. -/

namespace Sys2Proof.Machine

/-- A fault cause whose address is what its reason allows (R301). -/
def FaultCause.fits (c : FaultCause) (p : Params) : Prop := addrFits p c.reason c.addr

/-! ## The checks raise fitting causes -/

theorem State.resolveRead_fits {s : State} {k : Fin 3} {o : Operand} {c : FaultCause}
    (h : s.resolveRead k o = .error c) : c.fits s.params := by
  obtain ⟨a, -, ⟨ha, rfl⟩ | ⟨ha, rfl⟩⟩ := State.resolveRead_error h <;> exact ha

theorem State.resolveWrite_fits {s : State} {k : Fin 3} {o : Operand} {c : FaultCause}
    (h : s.resolveWrite k o = .error c) : c.fits s.params := by
  obtain ⟨-, rfl⟩ | ⟨a, -, ⟨ha, rfl⟩ | ⟨ha, rfl⟩ | ⟨ha, rfl⟩⟩ := State.resolveWrite_error h
  · trivial
  all_goals exact ha

theorem State.seqNext_fits {s : State} {len : Nat} {c : FaultCause}
    (h : s.seqNext len = .error c) : c.fits s.params := by
  obtain ⟨hlt, rfl⟩ := State.seqNext_error h
  exact hlt

/-- Peels one check off an instruction's sequence of checks. -/
theorem bind_ok {α β ε : Type} {x : Except ε α} {f : α → Except ε β} {b : β} :
    (x >>= f) = .ok b ↔ ∃ a, x = .ok a ∧ f a = .ok b := by
  cases x <;> simp [bind, Except.bind]

theorem bind_error {α β ε : Type} {x : Except ε α} {f : α → Except ε β} {e : ε} :
    (x >>= f) = .error e ↔ x = .error e ∨ ∃ a, x = .ok a ∧ f a = .error e := by
  cases x <;> simp [bind, Except.bind]

theorem pure_ok {α ε : Type} {a b : α} : (pure a : Except ε α) = .ok b ↔ b = a := by
  simp [pure, Except.pure, eq_comm]

theorem pure_error {α ε : Type} {a : α} {e : ε} : (pure a : Except ε α) = .error e ↔ False := by
  simp [pure, Except.pure]

/-! ## The effects -/

theorem effectRRW_ok {f : Word → Word → Word} {a b dst : Operand} {s t : State} :
    effectRRW f a b dst s = .ok t ↔
      s.readable a ∧ s.readable b ∧ s.continues 4 ∧
        ∃ d, s.writableAt dst d ∧
          t = (s.storeWord d (f (s.value a) (s.value b))).setIp (wrap64 (s.ip.toInt + (4 : Nat))) := by
  simp only [effectRRW, bind_ok, pure_ok, State.resolveRead_ok, State.resolveWrite_ok, State.seqNext_ok]
  constructor
  · rintro ⟨x, ⟨ha, rfl⟩, y, ⟨hb, rfl⟩, d, hd, n, ⟨hn, rfl⟩, rfl⟩
    exact ⟨ha, hb, hn, d, hd, rfl⟩
  · rintro ⟨ha, hb, hn, d, hd, rfl⟩
    exact ⟨_, ⟨ha, rfl⟩, _, ⟨hb, rfl⟩, d, hd, _, ⟨hn, rfl⟩, rfl⟩

theorem effectRRW_fits {f : Word → Word → Word} {a b dst : Operand} {s : State} {c : FaultCause}
    (h : effectRRW f a b dst s = .error c) : c.fits s.params := by
  simp only [effectRRW, bind_error, pure_error, and_false, exists_false, or_false] at h
  obtain h | ⟨_, -, h | ⟨_, -, h | ⟨_, -, h⟩⟩⟩ := h
  · exact State.resolveRead_fits h
  · exact State.resolveRead_fits h
  · exact State.resolveWrite_fits h
  · exact State.seqNext_fits h

theorem effectIn_ok {dst : Operand} {s t : State} :
    effectIn dst s = .ok t ↔
      s.continues 2 ∧ ∃ d, s.writableAt dst d ∧
        (s.inq = [] ∧ t = s.setStatus .waitingForInput ∨
          ∃ x xs, s.inq = x :: xs ∧
            t = ((s.setInq xs).storeWord d x).setIp (wrap64 (s.ip.toInt + (2 : Nat)))) := by
  simp only [effectIn, bind_ok, State.resolveWrite_ok, State.seqNext_ok]
  cases hq : s.inq with
  | nil =>
    constructor
    · rintro ⟨d, hd, n, ⟨hn, rfl⟩, ht⟩
      exact ⟨hn, d, hd, .inl ⟨rfl, pure_ok.1 ht⟩⟩
    · rintro ⟨hn, d, hd, ⟨-, rfl⟩ | ⟨x, xs, hx, -⟩⟩
      · exact ⟨d, hd, _, ⟨hn, rfl⟩, rfl⟩
      · cases hx
  | cons x xs =>
    constructor
    · rintro ⟨d, hd, n, ⟨hn, rfl⟩, ht⟩
      exact ⟨hn, d, hd, .inr ⟨x, xs, rfl, pure_ok.1 ht⟩⟩
    · rintro ⟨hn, d, hd, ⟨hx, -⟩ | ⟨y, ys, hx, rfl⟩⟩
      · cases hx
      · cases hx
        exact ⟨d, hd, _, ⟨hn, rfl⟩, rfl⟩

theorem effectIn_fits {dst : Operand} {s : State} {c : FaultCause}
    (h : effectIn dst s = .error c) : c.fits s.params := by
  simp only [effectIn, bind_error] at h
  obtain h | ⟨d, -, h | ⟨n, -, h⟩⟩ := h
  · exact State.resolveWrite_fits h
  · exact State.seqNext_fits h
  · cases hq : s.inq <;> rw [hq] at h <;> exact absurd h (by simp [pure, Except.pure])

theorem effectOut_ok {a : Operand} {s t : State} :
    effectOut a s = .ok t ↔
      s.readable a ∧ s.continues 2 ∧ s.outFull = false ∧
        t = (s.appendOut (s.value a)).setIp (wrap64 (s.ip.toInt + (2 : Nat))) := by
  simp only [effectOut, bind_ok, State.resolveRead_ok, State.seqNext_ok]
  cases hf : s.outFull with
  | false =>
    simp only [Bool.false_eq_true, if_false, true_and, pure_ok]
    constructor
    · rintro ⟨x, ⟨ha, rfl⟩, n, ⟨hn, rfl⟩, ht⟩
      exact ⟨ha, hn, ht⟩
    · rintro ⟨ha, hn, ht⟩
      exact ⟨_, ⟨ha, rfl⟩, _, ⟨hn, rfl⟩, ht⟩
  | true => simp

theorem effectOut_fits {a : Operand} {s : State} {c : FaultCause}
    (h : effectOut a s = .error c) : c.fits s.params := by
  simp only [effectOut, bind_error] at h
  obtain h | ⟨x, -, h | ⟨n, -, h⟩⟩ := h
  · exact State.resolveRead_fits h
  · exact State.seqNext_fits h
  · split at h
    · cases h
      trivial
    · exact absurd h (by simp [pure, Except.pure])

theorem effectJump_ok {taken : Word → Bool} {a b : Operand} {s t : State} :
    effectJump taken a b s = .ok t ↔
      s.readable a ∧ s.readable b ∧
        (taken (s.value a) = true ∧ t = s.setIp (s.value b) ∨
          taken (s.value a) = false ∧ s.continues 3 ∧ t = s.setIp (wrap64 (s.ip.toInt + (3 : Nat)))) := by
  simp only [effectJump, bind_ok, State.resolveRead_ok]
  cases ht : taken (s.value a) with
  | true =>
    constructor
    · rintro ⟨x, ⟨ha, rfl⟩, y, ⟨hb, rfl⟩, h⟩
      rw [ht, if_pos rfl, pure_ok] at h
      exact ⟨ha, hb, .inl ⟨rfl, h⟩⟩
    · rintro ⟨ha, hb, ⟨-, h⟩ | ⟨h, -⟩⟩
      · exact ⟨_, ⟨ha, rfl⟩, _, ⟨hb, rfl⟩, by rw [ht, if_pos rfl, pure_ok]; exact h⟩
      · cases h
  | false =>
    constructor
    · rintro ⟨x, ⟨ha, rfl⟩, y, ⟨hb, rfl⟩, h⟩
      rw [ht, if_neg (by simp)] at h
      simp only [bind_ok, State.seqNext_ok, pure_ok] at h
      obtain ⟨n, ⟨hn, rfl⟩, h⟩ := h
      exact ⟨ha, hb, .inr ⟨rfl, hn, h⟩⟩
    · rintro ⟨ha, hb, ⟨h, -⟩ | ⟨-, hn, h⟩⟩
      · cases h
      · refine ⟨_, ⟨ha, rfl⟩, _, ⟨hb, rfl⟩, ?_⟩
        rw [ht, if_neg (by simp)]
        simp only [bind_ok, State.seqNext_ok, pure_ok]
        exact ⟨_, ⟨hn, rfl⟩, h⟩

theorem effectJump_fits {taken : Word → Bool} {a b : Operand} {s : State} {c : FaultCause}
    (h : effectJump taken a b s = .error c) : c.fits s.params := by
  simp only [effectJump, bind_error] at h
  obtain h | ⟨x, -, h | ⟨y, -, h⟩⟩ := h
  · exact State.resolveRead_fits h
  · exact State.resolveRead_fits h
  · split at h
    · exact absurd h (by simp [pure, Except.pure])
    · simp only [bind_error, pure_error, and_false, exists_false, or_false] at h
      exact State.seqNext_fits h

theorem effectArb_ok {a : Operand} {s t : State} :
    effectArb a s = .ok t ↔
      s.readable a ∧ s.continues 2 ∧
        t = (s.setRb (wrap64 (s.rb.toInt + (s.value a).toInt))).setIp (wrap64 (s.ip.toInt + (2 : Nat))) := by
  simp only [effectArb, bind_ok, pure_ok, State.resolveRead_ok, State.seqNext_ok]
  constructor
  · rintro ⟨x, ⟨ha, rfl⟩, n, ⟨hn, rfl⟩, rfl⟩
    exact ⟨ha, hn, rfl⟩
  · rintro ⟨ha, hn, rfl⟩
    exact ⟨_, ⟨ha, rfl⟩, _, ⟨hn, rfl⟩, rfl⟩

theorem effectArb_fits {a : Operand} {s : State} {c : FaultCause}
    (h : effectArb a s = .error c) : c.fits s.params := by
  simp only [effectArb, bind_error, pure_error, and_false, exists_false, or_false] at h
  obtain h | ⟨_, -, h⟩ := h
  · exact State.resolveRead_fits h
  · exact State.seqNext_fits h

/-! ## Every instruction at once -/

/-- The effect of an instruction: what its meaning does where every check passes. -/
def effect : Instr → State → Except FaultCause State
  | .add a b dst, s => effectRRW addWords a b dst s
  | .mul a b dst, s => effectRRW mulWords a b dst s
  | .inp dst, s => effectIn dst s
  | .out a, s => effectOut a s
  | .jt a b, s => effectJump nonZero a b s
  | .jf a b, s => effectJump isZero a b s
  | .lt a b dst, s => effectRRW ltWord a b dst s
  | .eq a b dst, s => effectRRW eqWord a b dst s
  | .arb a, s => effectArb a s
  | .hlt, s => .ok (s.setStatus .halted)

theorem exec_eq (i : Instr) (s : State) : exec i s = s.conclude (effect i s) := by
  cases i <;> rfl

theorem effect_fits {i : Instr} {s : State} {c : FaultCause} (h : effect i s = .error c) :
    c.fits s.params := by
  cases i with
  | add a b dst => exact effectRRW_fits h
  | mul a b dst => exact effectRRW_fits h
  | inp dst => exact effectIn_fits h
  | out a => exact effectOut_fits h
  | jt a b => exact effectJump_fits h
  | jf a b => exact effectJump_fits h
  | lt a b dst => exact effectRRW_fits h
  | eq a b dst => exact effectRRW_fits h
  | arb a => exact effectArb_fits h
  | hlt => cases h

/-- Every instruction answers a next state: its effect, or the fault action with a fitting cause. -/
theorem exec_next {i : Instr} {s t : State} (h : exec i s = .next t) :
    effect i s = .ok t ∨ ∃ c, effect i s = .error c ∧ c.fits s.params ∧ t = s.raise c := by
  rw [exec_eq] at h
  obtain h | ⟨c, hc, ht⟩ := s.conclude_next h
  · exact .inl h
  · exact .inr ⟨c, hc, effect_fits hc, ht⟩

/-- Where every check passes, an instruction answers its effect. -/
theorem exec_of_effect {i : Instr} {s t : State} (h : effect i s = .ok t) : exec i s = .next t := by
  rw [exec_eq, h, State.conclude_ok]

/-- Where a check fails, an instruction answers the fault action with that check's cause. -/
theorem exec_of_fault {i : Instr} {s : State} {c : FaultCause} (h : effect i s = .error c) :
    exec i s = .next (s.raise c) := by
  rw [exec_eq, h, State.conclude_error]

/-- No instruction stops the machine with a fault or a refusal of its own. -/
theorem exec_isNext (i : Instr) (s : State) : ∃ t, exec i s = .next t := by
  rw [exec_eq]
  cases effect i s with
  | ok t => exact ⟨t, rfl⟩
  | error c => exact ⟨s.raise c, rfl⟩

/-- A format-RRW instruction is its shared shape. -/
theorem effect_rrw {i : Instr} {f : Word → Word → Word} {a b dst : Operand}
    (h : i.rrw = some (f, a, b, dst)) (s : State) : effect i s = effectRRW f a b dst s := by
  cases i <;> simp [Instr.rrw] at h <;> obtain ⟨rfl, rfl, rfl, rfl⟩ := h <;> rfl

/-- What an instruction whose checks all pass does: it stores a word and goes on, it blocks or takes an input, it appends, it
sets IP, it moves RB, or it halts (R136). -/
theorem effect_cases {i : Instr} {s t : State} (h : effect i s = .ok t) :
    (∃ f a b dst d, i.rrw = some (f, a, b, dst) ∧ s.writableAt dst d ∧ s.continues 4 ∧
      t = (s.storeWord d (f (s.value a) (s.value b))).setIp (wrap64 (s.ip.toInt + (4 : Nat)))) ∨
    (∃ dst, i = .inp dst ∧ s.inq = [] ∧ t = s.setStatus .waitingForInput) ∨
    (∃ dst d x xs, i = .inp dst ∧ s.inq = x :: xs ∧ s.writableAt dst d ∧ s.continues 2 ∧
      t = ((s.setInq xs).storeWord d x).setIp (wrap64 (s.ip.toInt + (2 : Nat)))) ∨
    (∃ a, i = .out a ∧ s.continues 2 ∧ s.outFull = false ∧
      t = (s.appendOut (s.value a)).setIp (wrap64 (s.ip.toInt + (2 : Nat)))) ∨
    (∃ a b, (i = .jt a b ∨ i = .jf a b) ∧ s.readable b ∧
      (t = s.setIp (s.value b) ∨ s.continues 3 ∧ t = s.setIp (wrap64 (s.ip.toInt + (3 : Nat))))) ∨
    (∃ a v, i = .arb a ∧ s.continues 2 ∧
      t = (s.setRb v).setIp (wrap64 (s.ip.toInt + (2 : Nat)))) ∨
    (i = .hlt ∧ t = s.setStatus .halted) := by
  cases hi : i.rrw with
  | some p =>
    obtain ⟨f, a, b, dst⟩ := p
    rw [effect_rrw hi] at h
    obtain ⟨-, -, hc, d, hd, rfl⟩ := effectRRW_ok.1 h
    exact .inl ⟨f, a, b, dst, d, rfl, hd, hc, rfl⟩
  | none =>
    right
    cases i with
    | add a b dst => cases hi
    | mul a b dst => cases hi
    | lt a b dst => cases hi
    | eq a b dst => cases hi
    | inp dst =>
      obtain ⟨hc, d, hd, ⟨hq, rfl⟩ | ⟨x, xs, hq, rfl⟩⟩ := effectIn_ok.1 h
      · exact .inl ⟨dst, rfl, hq, rfl⟩
      · exact .inr (.inl ⟨dst, d, x, xs, rfl, hq, hd, hc, rfl⟩)
    | out a =>
      obtain ⟨ha, hc, hf, rfl⟩ := effectOut_ok.1 h
      exact .inr (.inr (.inl ⟨a, rfl, hc, hf, rfl⟩))
    | jt a b =>
      obtain ⟨-, hb, ⟨-, rfl⟩ | ⟨-, hc, rfl⟩⟩ := effectJump_ok.1 h
      · exact .inr (.inr (.inr (.inl ⟨a, b, .inl rfl, hb, .inl rfl⟩)))
      · exact .inr (.inr (.inr (.inl ⟨a, b, .inl rfl, hb, .inr ⟨hc, rfl⟩⟩)))
    | jf a b =>
      obtain ⟨-, hb, ⟨-, rfl⟩ | ⟨-, hc, rfl⟩⟩ := effectJump_ok.1 h
      · exact .inr (.inr (.inr (.inl ⟨a, b, .inr rfl, hb, .inl rfl⟩)))
      · exact .inr (.inr (.inr (.inl ⟨a, b, .inr rfl, hb, .inr ⟨hc, rfl⟩⟩)))
    | arb a =>
      obtain ⟨ha, hc, rfl⟩ := effectArb_ok.1 h
      exact .inr (.inr (.inr (.inr (.inl ⟨a, _, rfl, hc, rfl⟩))))
    | hlt =>
      cases h
      exact .inr (.inr (.inr (.inr (.inr ⟨rfl, rfl⟩))))

end Sys2Proof.Machine
end

