-- ==== Sys2Proof/Laws/Network.lean ====
section
/-! SUPPORT. The cores of the block as a list, and what the scheduler's and the host's operations do to them
(spec/60_exceptions.md, R330 to R353). -/

namespace Sys2Proof.Machine

/-! ## The list of cores -/

@[simp] theorem State.length_cores (s : State) : s.cores.length = s.netN := by
  simp [State.cores, State.netN]
  omega

theorem State.netN_pos (s : State) : 0 < s.netN := by
  simp [State.netN]

/-- A core is where it was if the list of cores is the same. -/
theorem State.coreAt_congr {s t : State} (h : t.cores = s.cores) (j : Nat) : t.coreAt j = s.coreAt j := by
  unfold State.coreAt
  rw [h]

/-- The core in front of the engine is core number `before.length`. -/
@[simp] theorem State.coreAt_front (s : State) : s.coreAt s.before.length = some s.toCoreState := by
  simp [State.coreAt, State.cores]

theorem State.coreAt_lt {s : State} {i : Nat} {k : CoreState} (h : s.coreAt i = some k) : i < s.netN := by
  have := (List.getElem?_eq_some_iff.1 h).1
  simpa using this

theorem State.coreAt_of_lt {s : State} {i : Nat} (h : i < s.netN) : ∃ k, s.coreAt i = some k :=
  ⟨s.cores[i]'(by simpa using h), by simp [State.coreAt, h]⟩

theorem State.mem_cores_of_coreAt {s : State} {i : Nat} {k : CoreState} (h : s.coreAt i = some k) :
    k ∈ s.cores := List.mem_of_getElem? h

theorem State.mem_cores {s : State} {k : CoreState} :
    k ∈ s.cores ↔ k ∈ s.before ∨ k = s.toCoreState ∨ k ∈ s.after := by
  simp [State.cores]

/-- `C[i] <- k` on the list of cores. -/
theorem State.cores_setCore (s : State) (i : Nat) (k : CoreState) :
    (s.setCore i k).cores = s.cores.set i k := by
  unfold State.setCore State.cores
  split
  · next h => simp [h]
  · next h =>
    split
    · next h' => subst h'; simp
    · next h' =>
      obtain ⟨d, hd⟩ : ∃ d, i - s.before.length = d + 1 := ⟨i - s.before.length - 1, by omega⟩
      simp [List.set_append, h, hd]

@[simp] theorem State.netN_setCore (s : State) (i : Nat) (k : CoreState) :
    (s.setCore i k).netN = s.netN := by
  rw [← State.length_cores, State.cores_setCore, List.length_set, State.length_cores]

theorem State.coreAt_setCore (s : State) (i j : Nat) (k : CoreState) :
    (s.setCore i k).coreAt j = if i = j then (if i < s.netN then some k else none) else s.coreAt j := by
  unfold State.coreAt
  rw [State.cores_setCore, List.getElem?_set]
  simp

@[simp] theorem State.setCore_params (s : State) (i : Nat) (k : CoreState) :
    (s.setCore i k).params = s.params := by unfold State.setCore; split <;> [rfl; (split <;> rfl)]
@[simp] theorem State.setCore_cur (s : State) (i : Nat) (k : CoreState) :
    (s.setCore i k).cur = s.cur := by unfold State.setCore; split <;> [rfl; (split <;> rfl)]
@[simp] theorem State.setCore_runs (s : State) (i : Nat) (k : CoreState) :
    (s.setCore i k).runs = s.runs := by unfold State.setCore; split <;> [rfl; (split <;> rfl)]
@[simp] theorem State.setCore_nstatus (s : State) (i : Nat) (k : CoreState) :
    (s.setCore i k).nstatus = s.nstatus := by unfold State.setCore; split <;> [rfl; (split <;> rfl)]
@[simp] theorem State.setCore_scheduling (s : State) (i : Nat) (k : CoreState) :
    (s.setCore i k).scheduling = s.scheduling := by unfold State.setCore; split <;> [rfl; (split <;> rfl)]
@[simp] theorem State.setCore_length_before (s : State) (i : Nat) (k : CoreState) :
    (s.setCore i k).before.length = s.before.length := by
  unfold State.setCore; split <;> [simp; (split <;> rfl)]

/-- Storing back a core that is there changes nothing. -/
theorem State.setCore_self {s : State} {i : Nat} {k : CoreState} (h : s.coreAt i = some k) :
    s.setCore i k = s := by
  have hlt := State.coreAt_lt h
  unfold State.coreAt State.cores at h
  unfold State.setCore
  split
  · next hb =>
    rw [List.getElem?_append_left hb, List.getElem?_eq_some_iff] at h
    obtain ⟨_, rfl⟩ := h
    simp
  · next hb =>
    rw [List.getElem?_append_right (by omega)] at h
    split
    · next he =>
      subst he
      simp at h
      subst h
      rfl
    · next he =>
      obtain ⟨d, hd⟩ : ∃ d, i - s.before.length = d + 1 := ⟨i - s.before.length - 1, by omega⟩
      rw [hd, List.getElem?_cons_succ, List.getElem?_eq_some_iff] at h
      obtain ⟨_, rfl⟩ := h
      simp [hd]

/-- Putting a core in front of the engine moves no core and changes nothing else. -/
theorem State.focus_some {s t : State} {i : Nat} (h : s.focus i = some t) :
    t.cores = s.cores ∧ s.coreAt i = some t.toCoreState ∧ t.before.length = i ∧ t.params = s.params ∧
      t.cur = s.cur ∧ t.runs = s.runs ∧ t.nstatus = s.nstatus ∧ t.scheduling = s.scheduling := by
  unfold State.focus at h
  split at h
  · cases h
  · next k hk =>
    cases h
    obtain ⟨hlt, hget⟩ := List.getElem?_eq_some_iff.1 hk
    refine ⟨?_, hk, ?_, rfl, rfl, rfl, rfl, rfl⟩
    · show s.cores.take i ++ k :: s.cores.drop (i + 1) = s.cores
      rw [← hget, ← List.drop_eq_getElem_cons hlt, List.take_append_drop]
    · simpa using Nat.le_of_lt (by simpa using hlt)

theorem State.focus_isSome {s : State} {i : Nat} (h : i < s.netN) : ∃ t, s.focus i = some t := by
  obtain ⟨k, hk⟩ := State.coreAt_of_lt h
  unfold State.focus
  rw [show s.cores[i]? = some k from hk]
  exact ⟨_, rfl⟩

/-! ## The queues -/

/-- R333: a fed core differs from the core before in its input queue alone. -/
theorem CoreState.feed_ok {k k' : CoreState} {p : Params} {vs : List Word} (h : k.feed p vs = .ok k') :
    withinCap p.inCap (k.inq.length + vs.length) = true ∧ k' = { k with inq := k.inq ++ vs } := by
  unfold CoreState.feed at h
  split at h
  · next hw => exact ⟨hw, by simpa using h.symm⟩
  · cases h

theorem CoreState.feed_error {k : CoreState} {p : Params} {vs : List Word} {e : HostRefusal}
    (h : k.feed p vs = .error e) : withinCap p.inCap (k.inq.length + vs.length) = false := by
  unfold CoreState.feed at h
  split at h
  · cases h
  · next hw => simpa using hw

/-- R352: what a core of the block receives, or that the network fails. -/
theorem State.receive_cases {s : State} {j : Nat} {k : CoreState} (hk : s.coreAt j = some k) (xs : List Word) :
    (withinCap s.params.inCap (k.inq.length + xs.length) = true ∧
        s.receive j xs = s.setCore j { k with inq := k.inq ++ xs }) ∨
      (withinCap s.params.inCap (k.inq.length + xs.length) = false ∧
        s.receive j xs = { s with nstatus := .failed .queueOverflow }) := by
  unfold State.receive
  simp only [hk]
  cases hf : k.feed s.params xs with
  | ok k' =>
    obtain ⟨hw, rfl⟩ := CoreState.feed_ok hf
    exact .inl ⟨hw, rfl⟩
  | error e => exact .inr ⟨CoreState.feed_error hf, rfl⟩

/-- R352: what a transfer from core `i` leaves: core `i` drained, and the next core fed or the network failed. -/
theorem State.transfer_cases {s : State} {i : Nat} {k : CoreState} (hk : s.coreAt i = some k) :
    ∃ t, (s.setCore i k.drained).coreAt ((i + 1) % s.netN) = some t ∧
      ((withinCap s.params.inCap (t.inq.length + k.buffered.length) = true ∧
          s.transfer i =
            (s.setCore i k.drained).setCore ((i + 1) % s.netN) { t with inq := t.inq ++ k.buffered }) ∨
        (withinCap s.params.inCap (t.inq.length + k.buffered.length) = false ∧
          s.transfer i = { s.setCore i k.drained with nstatus := .failed .queueOverflow })) := by
  obtain ⟨t, ht⟩ : ∃ t, (s.setCore i k.drained).coreAt ((i + 1) % s.netN) = some t :=
    State.coreAt_of_lt (by simpa using Nat.mod_lt _ s.netN_pos)
  refine ⟨t, ht, ?_⟩
  have he : s.transfer i = (s.setCore i k.drained).receive ((i + 1) % s.netN) k.buffered := by
    unfold State.transfer
    rw [hk]
  rw [he]
  simpa using State.receive_cases ht k.buffered

/-- R352: what a transfer leaves of the cores and of NSTATUS depends on the cores as a list, IN_CAP and NSTATUS alone: not on
which core stands in front of the engine. -/
theorem State.transfer_congr {s t : State} (hc : t.cores = s.cores) (hp : t.params = s.params)
    (hn : t.nstatus = s.nstatus) (i : Nat) :
    (t.transfer i).cores = (s.transfer i).cores ∧ (t.transfer i).nstatus = (s.transfer i).nstatus := by
  have hlen : t.netN = s.netN := by rw [← State.length_cores, hc, State.length_cores]
  cases hk : s.coreAt i with
  | none =>
    have hs : s.transfer i = s := by unfold State.transfer; rw [hk]
    have ht : t.transfer i = t := by unfold State.transfer; rw [State.coreAt_congr hc, hk]
    rw [hs, ht]
    exact ⟨hc, hn⟩
  | some k =>
    have hd : (t.setCore i k.drained).cores = (s.setCore i k.drained).cores := by
      rw [State.cores_setCore, State.cores_setCore, hc]
    obtain ⟨u, hu, hcs⟩ := State.transfer_cases hk
    obtain ⟨v, hv, hct⟩ := State.transfer_cases ((State.coreAt_congr hc i).trans hk)
    rw [hlen, State.coreAt_congr hd, hu] at hv
    cases hv
    rw [hp, hlen] at hct
    obtain ⟨hw, es⟩ | ⟨hw, es⟩ := hcs
    · obtain ⟨-, et⟩ | ⟨hw', -⟩ := hct
      · rw [es, et]
        exact ⟨by simp only [State.cores_setCore, hc], by simpa using hn⟩
      · rw [hw] at hw'
        cases hw'
    · obtain ⟨hw', -⟩ | ⟨-, et⟩ := hct
      · rw [hw] at hw'
        cases hw'
      · rw [es, et]
        exact ⟨hd, rfl⟩

/-- A command other than `run` is served, or refused with Busy (R331). -/
theorem State.serve_eq (s : State) (i : Nat) (k : CoreState) (f : Params → CoreState → HostReply × CoreState) :
    s.serve i k f = if k.busy then (.refused .busy, s)
      else ((f s.params k).1, s.setCore i (f s.params k).2) := rfl

end Sys2Proof.Machine
end

