-- ==== Sys2Proof/Laws/Step.lean ====
section
/-! SUPPORT. What one step of the machine can do, said once, and the fetch as one lemma (spec/40_execution_cycle.md, R130 to
R134; spec/60_exceptions.md, R351). -/

namespace Sys2Proof.Machine

/-! ## Fetch -/

theorem State.memRead_ok {s : State} {a : Int} {w : Word} :
    s.memRead a = .ok w ↔ (0 ≤ a ∧ a ≤ addrMax) ∧ w = s.mem.read a.toNat := by
  unfold State.memRead
  split
  · simp; omega
  · split
    · simp; omega
    · simp only [Except.ok.injEq, eq_comm]
      exact ⟨fun h => ⟨by omega, h⟩, fun h => h.2⟩

/-- R130: a fetched instruction, from the word at IP and the operand words after it. -/
theorem State.fetch_ok {s : State} {i : Instr} :
    s.fetch = .ok i ↔ 0 ≤ s.ip.toInt ∧ ∃ h, decodeHead (s.mem.read s.ip.toInt.toNat) = .ok h ∧
      s.ip.toInt + h.op.length - 1 ≤ addrMax ∧
      i = assemble h (s.rawOperand h.op.length 0) (s.rawOperand h.op.length 1) (s.rawOperand h.op.length 2) := by
  have hmax := toInt_le_max s.ip
  simp only [State.fetch, bind_ok, State.memRead_ok, decodeWord]
  constructor
  · rintro ⟨w, ⟨⟨h0, -⟩, rfl⟩, h, hd, hrest⟩
    cases hdec : decodeHead (s.mem.read s.ip.toInt.toNat) with
    | error e => rw [hdec] at hd; cases hd
    | ok h' =>
      rw [hdec] at hd
      cases hd
      split at hrest
      · cases hrest
      · exact ⟨h0, h, rfl, by omega, pure_ok.1 hrest⟩
  · rintro ⟨h0, h, hd, hlast, rfl⟩
    refine ⟨_, ⟨⟨h0, hmax⟩, rfl⟩, h, by rw [hd], ?_⟩
    rw [if_neg (by omega)]
    rfl

/-- R131, R132, R134: a fetch that faults raises a fitting cause. -/
theorem State.fetch_fits {s : State} {c : FaultCause} (h : s.fetch = .error c) : c.fits s.params := by
  simp only [State.fetch, bind_error] at h
  obtain h | ⟨w, -, h | ⟨hd, -, h⟩⟩ := h
  · unfold State.memRead at h
    split at h
    · next hlt => cases h; exact hlt
    · split at h
      · next hlt => cases h; exact hlt
      · cases h
  · unfold decodeWord at h
    split at h
    · cases h
    · next e _ => cases h; cases e <;> trivial
  · split at h
    · next hlt => cases h; exact hlt
    · exact absurd h (by simp [pure, Except.pure])

/-- R130: one instruction, or the fault action with a fitting cause. It never stops the machine. -/
theorem State.engineStep_next {s t : State} (h : s.engineStep = .next t) :
    (∃ i, s.fetch = .ok i ∧ effect i s = .ok t) ∨ ∃ c, c.fits s.params ∧ t = s.raise c := by
  unfold State.engineStep at h
  split at h
  · next i hi =>
    obtain h | ⟨c, -, hc, ht⟩ := exec_next h
    · exact .inl ⟨i, hi, h⟩
    · exact .inr ⟨c, hc, ht⟩
  · next c hc => exact .inr ⟨c, State.fetch_fits hc, by simpa using h.symm⟩

/-- R95, R132, R304: a fetched word that the decoder rejects is the fault action with the decoder's cause, before the operand
range is looked at. -/
theorem State.engineStep_of_decodeWord_error {s : State} {c : FaultCause} (h0 : 0 ≤ s.ip.toInt)
    (h : decodeWord (s.mem.read s.ip.toNat) = .error c) : s.engineStep = .next (s.raise c) := by
  have hip : s.ip.toInt.toNat = s.ip.toNat := by
    have := toNat_of_nonneg h0
    omega
  have hread : s.memRead s.ip.toInt = .ok (s.mem.read s.ip.toNat) :=
    State.memRead_ok.2 ⟨⟨h0, toInt_le_max _⟩, by rw [hip]⟩
  have hf : s.fetch = .error c := by
    simp only [State.fetch, hread, bind, Except.bind, h]
  unfold State.engineStep
  rw [hf]

/-! ## The four things a step can be -/

theorem step_running {s : State} (hb : s.busy = true) (hr : s.status = .running) :
    step s = s.engineStep := by simp [step, hb, hr]

theorem step_returning {s : State} (hb : s.busy = true) (hr : s.status ≠ .running) :
    step s = .next s.runReturn := by simp [step, hb, hr]

theorem step_scheduling {s : State} (hb : s.busy = false) (hs : s.scheduling = true) :
    step s = s.schedStep := by simp [step, hb, hs]

theorem step_idle {s : State} (hb : s.busy = false) (hs : s.scheduling = false) :
    step s = .next s := by simp [step, hb, hs]

/-- Which of the four a step is. -/
theorem step_cases {s t : State} (h : step s = .next t) :
    (s.busy = true ∧ s.status = .running ∧ s.engineStep = .next t) ∨
      (s.busy = true ∧ s.status ≠ .running ∧ t = s.runReturn) ∨
      (s.busy = false ∧ s.scheduling = true ∧ s.schedStep = .next t) ∨
      (s.busy = false ∧ s.scheduling = false ∧ t = s) := by
  cases hb : s.busy with
  | true =>
    by_cases hr : s.status = .running
    · exact .inl ⟨rfl, hr, by rw [← step_running hb hr]; exact h⟩
    · rw [step_returning hb hr] at h
      exact .inr (.inl ⟨rfl, hr, by simpa using h.symm⟩)
  | false =>
    cases hs : s.scheduling with
    | true => exact .inr (.inr (.inl ⟨rfl, rfl, by rw [← step_scheduling hb hs]; exact h⟩))
    | false =>
      rw [step_idle hb hs] at h
      exact .inr (.inr (.inr ⟨rfl, rfl, by simpa using h.symm⟩))

/-- R351: what the scheduler's step can be. -/
theorem State.schedStep_cases {s t : State} (h : s.schedStep = .next t) :
    (s.nstatus ≠ .scheduling ∧ t = { s with scheduling := false }) ∨
      (s.nstatus = .scheduling ∧ s.capReached = true ∧ t = { s with nstatus := .failed .roundCapExceeded }) ∨
      (s.nstatus = .scheduling ∧ s.capReached = false ∧ ∃ u, s.focus s.cur = some u ∧
        ((u.status = .halted ∨ u.status = .faulted) ∧ t = u.afterRun ∨
          ¬ (u.status = .halted ∨ u.status = .faulted) ∧ t = u.runBegin)) := by
  unfold State.schedStep at h
  split at h
  · next hn => exact .inl ⟨hn, by simpa using h.symm⟩
  · next hn =>
    have hn := not_not.1 hn
    split at h
    · next hc => exact .inr (.inl ⟨hn, hc, by simpa using h.symm⟩)
    · next hc =>
      refine .inr (.inr ⟨hn, by simpa using hc, ?_⟩)
      split at h
      · cases h
      · next u hu =>
        refine ⟨u, hu, ?_⟩
        split at h
        · next hst => exact .inl ⟨hst, by simpa using h.symm⟩
        · next hst => exact .inr ⟨hst, by simpa using h.symm⟩

end Sys2Proof.Machine
end

