-- ==== Sys2Proof/Laws/Cores.lean ====
section
/-! SUPPORT. What one step, and one host command, does to each core of the block, said once (spec/10_state.md, R38, R45, R46;
spec/60_exceptions.md, R330 to R353). Claims about every core cite these. -/

namespace Sys2Proof.Machine

/-! ## The cores by index -/

theorem State.coreAt_eq (s : State) (j : Nat) :
    s.coreAt j = if j < s.before.length then s.before[j]?
      else if j = s.before.length then some s.toCoreState else s.after[j - s.before.length - 1]? := by
  unfold State.coreAt State.cores
  split
  · next h => rw [List.getElem?_append_left h]
  · next h =>
    rw [List.getElem?_append_right (by omega)]
    split
    · next h' => subst h'; simp
    · next h' =>
      obtain ⟨d, hd⟩ : ∃ d, j - s.before.length = d + 1 := ⟨j - s.before.length - 1, by omega⟩
      simp [hd]

/-- Where the other cores are the same data, a core is unchanged or is the one in front of the engine. -/
theorem State.coreAt_of_same {s t : State} (hb : t.before = s.before) (ha : t.after = s.after) {j : Nat}
    {k k' : CoreState} (h : s.coreAt j = some k) (h' : t.coreAt j = some k') :
    k' = k ∨ (j = s.before.length ∧ k = s.toCoreState ∧ k' = t.toCoreState) := by
  rw [State.coreAt_eq] at h h'
  rw [hb, ha] at h'
  split at h
  · next hj =>
    rw [if_pos hj, h] at h'
    exact .inl (Option.some.inj h').symm
  · next hj =>
    rw [if_neg hj] at h'
    split at h
    · next he =>
      rw [if_pos he] at h'
      cases h
      cases h'
      exact .inr ⟨he, rfl, rfl⟩
    · next he =>
      rw [if_neg he, h] at h'
      exact .inl (Option.some.inj h').symm

/-! ## The scheduler's transfer -/

/-- What a transfer may change of a core: words at the end of INQ, and OUTCUR (R45, R352). -/
def CoreState.queuesOnly (k k' : CoreState) : Prop :=
  ∃ vs n, k' = { k with inq := k.inq ++ vs, outCur := n }

theorem CoreState.queuesOnly_refl (k : CoreState) : k.queuesOnly k := ⟨[], k.outCur, by simp⟩

theorem CoreState.queuesOnly_trans {k k' k'' : CoreState} (h : k.queuesOnly k') (h' : k'.queuesOnly k'') :
    k.queuesOnly k'' := by
  obtain ⟨vs, n, rfl⟩ := h
  obtain ⟨ws, m, rfl⟩ := h'
  exact ⟨vs ++ ws, m, by simp⟩

theorem State.transfer_core {s : State} {i j : Nat} {k : CoreState} (h : s.coreAt j = some k) :
    ∃ k', (s.transfer i).coreAt j = some k' ∧ k.queuesOnly k' := by
  cases hki : s.coreAt i with
  | none => exact ⟨k, by unfold State.transfer; rw [hki]; exact h, k.queuesOnly_refl⟩
  | some ki =>
    have hi := State.coreAt_lt hki
    obtain ⟨t, ht, hc⟩ := State.transfer_cases hki
    obtain ⟨k1, hk1, hq⟩ : ∃ k1, (s.setCore i ki.drained).coreAt j = some k1 ∧ k.queuesOnly k1 := by
      by_cases e : i = j
      · subst e
        rw [hki] at h
        cases h
        exact ⟨k.drained, by rw [State.coreAt_setCore, if_pos rfl, if_pos hi], [], k.outLog.length,
          by simp [CoreState.drained]⟩
      · exact ⟨k, by rw [State.coreAt_setCore, if_neg e]; exact h, k.queuesOnly_refl⟩
    rcases hc with ⟨-, heq⟩ | ⟨-, heq⟩
    · rw [heq]
      by_cases e : (i + 1) % s.netN = j
      · rw [e, hk1] at ht
        cases ht
        refine ⟨{ t with inq := t.inq ++ ki.buffered }, ?_,
          CoreState.queuesOnly_trans hq ⟨ki.buffered, t.outCur, rfl⟩⟩
        rw [State.coreAt_setCore, if_pos e, if_pos (by simpa using Nat.mod_lt _ s.netN_pos)]
      · exact ⟨k1, by rw [State.coreAt_setCore, if_neg e]; exact hk1, hq⟩
    · rw [heq]
      exact ⟨k1, hk1, hq⟩

/-- What a transfer leaves of the rest of the block. -/
theorem State.transfer_block (s : State) (i : Nat) :
    (s.transfer i).netN = s.netN ∧ (s.transfer i).params = s.params ∧ (s.transfer i).cur = s.cur ∧
      (s.transfer i).scheduling = s.scheduling ∧ (s.transfer i).before.length = s.before.length := by
  cases hk : s.coreAt i with
  | none =>
    have : s.transfer i = s := by unfold State.transfer; rw [hk]
    rw [this]
    exact ⟨rfl, rfl, rfl, rfl, rfl⟩
  | some k =>
    obtain ⟨t, -, ⟨-, heq⟩ | ⟨-, heq⟩⟩ := State.transfer_cases hk
    · rw [heq]
      simp
    · rw [heq]
      refine ⟨s.netN_setCore i k.drained, ?_, ?_, ?_, ?_⟩ <;> simp

/-- R351: the cores after the scheduler's loop body. -/
theorem State.afterRun_cores (s : State) :
    s.status = .faulted ∧ s.afterRun.cores = s.cores ∨
      s.status ≠ .faulted ∧ s.afterRun.cores = (s.transfer s.cur).cores := by
  unfold State.afterRun
  split
  · next h => exact .inl ⟨h, rfl⟩
  · next h => exact .inr ⟨h, rfl⟩

theorem State.afterRun_core {s : State} {j : Nat} {k : CoreState} (h : s.coreAt j = some k) :
    ∃ k', s.afterRun.coreAt j = some k' ∧ k.queuesOnly k' := by
  obtain ⟨-, e⟩ | ⟨-, e⟩ := s.afterRun_cores
  · exact ⟨k, by rw [State.coreAt_congr e]; exact h, k.queuesOnly_refl⟩
  · obtain ⟨k', h', o⟩ := State.transfer_core (i := s.cur) h
    exact ⟨k', by rw [State.coreAt_congr e]; exact h', o⟩

/-- R352: a transfer leaves NSTATUS, or fails the network. -/
theorem State.transfer_nstatus (s : State) (i : Nat) :
    (s.transfer i).nstatus = s.nstatus ∨ (s.transfer i).nstatus = .failed .queueOverflow := by
  cases hk : s.coreAt i with
  | none =>
    have : s.transfer i = s := by unfold State.transfer; rw [hk]
    exact .inl (by rw [this])
  | some k =>
    obtain ⟨t, -, ⟨-, e⟩ | ⟨-, e⟩⟩ := State.transfer_cases hk
    · exact .inl (by rw [e]; simp)
    · exact .inr (by rw [e])

/-- R353: the answer depends on the cores as a list alone. -/
theorem State.answer_congr {s t : State} (h : t.cores = s.cores) : t.answer = s.answer := by
  have hlen : t.netN = s.netN := by rw [← State.length_cores, h, State.length_cores]
  unfold State.answer
  rw [hlen, State.coreAt_congr h]

theorem State.allHalted_iff {s : State} : s.allHalted = true ↔ ∀ k ∈ s.cores, k.status = .halted := by
  simp [State.allHalted]

/-- R351: what the loop body leaves where the run has not returned Faulted. -/
theorem State.afterRun_turnEndsIn {s : State} (hf : s.status ≠ .faulted) (hn : s.nstatus = .scheduling) :
    s.turnEndsIn s.afterRun := by
  obtain ⟨-, hp, -, hs, -⟩ := s.transfer_block s.cur
  unfold State.afterRun
  rw [if_neg hf]
  refine ⟨rfl, rfl, hp, hs, rfl, fun h => ?_, fun h => ⟨fun hk => ?_, fun hk => ?_⟩⟩
  · have ho := (s.transfer_nstatus s.cur).resolve_left (by rw [hn]; exact h)
    simpa [h] using ho
  · have hall : (s.transfer s.cur).allHalted ≠ true := fun ha => by
      obtain ⟨k, hk, hks⟩ := hk
      exact hks (State.allHalted_iff.1 ha k hk)
    simpa [hall] using h
  · have hall : (s.transfer s.cur).allHalted = true := State.allHalted_iff.2 hk
    refine Eq.trans ?_ (State.answer_congr (s := s.transfer s.cur) rfl).symm
    simp [h, hall]

/-! ## One step -/

/-- The engine's step leaves the rest of the block alone (R45, R46). -/
theorem State.engineStep_sameBlock {s t : State} (h : s.engineStep = .next t) : s.sameBlock t := by
  obtain ⟨i, -, h⟩ | ⟨c, -, rfl⟩ := State.engineStep_next h
  · obtain ⟨f, a, b, dst, d, -, -, -, rfl⟩ | ⟨dst, -, -, rfl⟩ | ⟨dst, d, x, xs, -, -, -, -, rfl⟩ |
      ⟨a, -, -, -, rfl⟩ | ⟨a, b, -, -, rfl | ⟨-, rfl⟩⟩ | ⟨a, v, -, -, rfl⟩ | ⟨-, rfl⟩ := effect_cases h
    all_goals exact ⟨rfl, rfl, rfl, rfl, rfl, rfl, rfl, rfl, rfl⟩
  · exact ⟨rfl, rfl, rfl, rfl, rfl, rfl, rfl, rfl, rfl⟩

/-- A run that begins makes the core Running and BUSY. -/
theorem State.runBegin_eq {s : State} (h : ¬ (s.status = .halted ∨ s.status = .faulted)) :
    s.runBegin = (s.setStatus .running).setBusy true := if_neg h

/-- What a step does to core `j`: it is the running core and the engine steps it; or only its queues (and BUSY, at the
return of its run) change, and its INQ only under the scheduler; or the scheduler starts its run. -/
theorem step_core {s t : State} (hst : step s = .next t) {j : Nat} {k : CoreState} (h : s.coreAt j = some k) :
    ∃ k', t.coreAt j = some k' ∧
      ((j = s.before.length ∧ s.busy = true ∧ s.status = .running ∧ k = s.toCoreState ∧ k' = t.toCoreState ∧
          s.engineStep = .next t) ∨
        (∃ k1, k.queuesOnly k1 ∧ (s.scheduling = true ∨ k1 = k) ∧ ∃ b, k' = { k1 with busy := b }) ∨
        (j = s.cur ∧ s.busy = false ∧ s.scheduling = true ∧ ¬ (k.status = .halted ∨ k.status = .faulted) ∧
          k' = { k with status := .running, busy := true })) := by
  obtain ⟨hb, hr, he⟩ | ⟨hb, -, rfl⟩ | ⟨hb, hs, he⟩ | ⟨-, -, rfl⟩ := step_cases hst
  · obtain ⟨-, h1, h2, -⟩ := State.engineStep_sameBlock he
    obtain ⟨k', hk'⟩ : ∃ k', t.coreAt j = some k' := by
      refine State.coreAt_of_lt ?_
      rw [State.netN, h1, h2]
      exact State.coreAt_lt h
    refine ⟨k', hk', ?_⟩
    rcases State.coreAt_of_same h1 h2 h hk' with rfl | ⟨hj, rfl, rfl⟩
    · exact .inr (.inl ⟨_, CoreState.queuesOnly_refl _, .inr rfl, _, rfl⟩)
    · exact .inl ⟨hj, hb, hr, rfl, rfl, he⟩
  · obtain ⟨k1, hk1, b, hkb⟩ : ∃ k1, (s.setBusy false).coreAt j = some k1 ∧ ∃ b, k1 = { k with busy := b } := by
      obtain ⟨k1, hk1⟩ : ∃ k1, (s.setBusy false).coreAt j = some k1 :=
        State.coreAt_of_lt (s := s.setBusy false) (show j < s.netN from State.coreAt_lt h)
      refine ⟨k1, hk1, ?_⟩
      rcases State.coreAt_of_same (s := s) (t := s.setBusy false) rfl rfl h hk1 with rfl | ⟨-, rfl, rfl⟩
      · exact ⟨_, rfl⟩
      · exact ⟨false, rfl⟩
    subst hkb
    unfold State.runReturn
    simp only
    split
    · next hs =>
      obtain ⟨k2, hk2, vs, n, rfl⟩ := State.afterRun_core hk1
      exact ⟨_, hk2, .inr (.inl ⟨_, ⟨vs, n, rfl⟩, .inl hs, b, rfl⟩)⟩
    · exact ⟨_, hk1, .inr (.inl ⟨k, k.queuesOnly_refl, .inr rfl, b, rfl⟩)⟩
  · obtain ⟨-, rfl⟩ | ⟨-, -, rfl⟩ | ⟨-, -, u, hu, ⟨-, rfl⟩ | ⟨hnot, rfl⟩⟩ := State.schedStep_cases he
    · exact ⟨k, h, .inr (.inl ⟨k, k.queuesOnly_refl, .inr rfl, _, rfl⟩)⟩
    · exact ⟨k, h, .inr (.inl ⟨k, k.queuesOnly_refl, .inr rfl, _, rfl⟩)⟩
    · have hju : u.coreAt j = some k := by
        rw [State.coreAt_congr (State.focus_some hu).1]
        exact h
      obtain ⟨k2, hk2, o2⟩ := State.afterRun_core hju
      exact ⟨k2, hk2, .inr (.inl ⟨k2, o2, .inl hs, _, rfl⟩)⟩
    · obtain ⟨hc, -, hlen, -⟩ := State.focus_some hu
      have hju : u.coreAt j = some k := by
        rw [State.coreAt_congr hc]
        exact h
      rw [State.runBegin_eq hnot]
      obtain ⟨k1, hk1⟩ : ∃ k1, ((u.setStatus .running).setBusy true).coreAt j = some k1 :=
        State.coreAt_of_lt (s := (u.setStatus .running).setBusy true) (show j < u.netN from State.coreAt_lt hju)
      refine ⟨k1, hk1, ?_⟩
      rcases State.coreAt_of_same (s := u) (t := (u.setStatus .running).setBusy true) rfl rfl hju hk1 with
        rfl | ⟨hj, rfl, rfl⟩
      · exact .inr (.inl ⟨_, CoreState.queuesOnly_refl _, .inr rfl, _, rfl⟩)
      · exact .inr (.inr ⟨by omega, hb, hs, hnot, rfl⟩)
  · exact ⟨k, h, .inr (.inl ⟨k, k.queuesOnly_refl, .inr rfl, _, rfl⟩)⟩

/-! ## One host command -/

/-- R330: what a command other than `run` does to its core. -/
def HostCmd.act : HostCmd → Params → CoreState → HostReply × CoreState
  | .run, _, k => (.started, k)
  | .feed vs, p, k => k.hostFeed p vs
  | .takeOutput, _, k => k.takeOutput
  | .outputs, _, k => k.outputs
  | .memoryAt a, _, k => k.memoryAt a
  | .drain, _, k => k.drain

/-- R331: a command other than `run` is one transaction on its core. -/
theorem State.command_of_ne_run {s : State} {i : Nat} {k : CoreState} {c : HostCmd} (h : s.coreAt i = some k)
    (hc : c ≠ .run) : s.command i c = s.serve i k c.act := by
  unfold State.command
  rw [h]
  cases c with
  | run => exact absurd rfl hc
  | feed vs => rfl
  | takeOutput => rfl
  | outputs => rfl
  | memoryAt a => rfl
  | drain => rfl

/-- R331: on a core that is not BUSY such a command answers and leaves what it does on that core. -/
theorem State.command_served {s : State} {i : Nat} {k : CoreState} {c : HostCmd} (h : s.coreAt i = some k)
    (hc : c ≠ .run) (hb : k.busy = false) :
    s.command i c = ((c.act s.params k).1, s.setCore i (c.act s.params k).2) := by
  rw [State.command_of_ne_run h hc, State.serve_eq, if_neg (by simp [hb])]

/-- R140, R331: what the command `run` answers. -/
theorem State.command_run_cases {s : State} {i : Nat} {k : CoreState} (h : s.coreAt i = some k) :
    s.command i .run = (.refused .busy, s) ∧ (s.busy = true ∨ s.scheduling = true ∨ k.busy = true) ∨
      (s.busy = false ∧ s.scheduling = false ∧ k.busy = false ∧
        ((k.status = .halted ∨ k.status = .faulted) ∧ s.command i .run = (.returned k.status k.fault, s) ∨
          ¬ (k.status = .halted ∨ k.status = .faulted) ∧ ∃ t, s.focus i = some t ∧
            s.command i .run = (.started, (t.setStatus .running).setBusy true))) := by
  unfold State.command
  rw [h]
  simp only
  cases hb : s.busy with
  | true => exact .inl ⟨by simp, .inl rfl⟩
  | false =>
    cases hs : s.scheduling with
    | true => exact .inl ⟨by simp, .inr (.inl rfl)⟩
    | false =>
      cases hk : k.busy with
      | true => exact .inl ⟨by simp, .inr (.inr rfl)⟩
      | false =>
        refine .inr ⟨rfl, rfl, rfl, ?_⟩
        by_cases hst : k.status = .halted ∨ k.status = .faulted
        · exact .inl ⟨hst, by simp [hst]⟩
        · obtain ⟨t, ht⟩ := State.focus_isSome (State.coreAt_lt h)
          have hkt : some t.toCoreState = some k := (State.focus_some ht).2.1.symm.trans h
          refine .inr ⟨hst, t, ht, ?_⟩
          rw [← State.runBegin_eq (by rw [Option.some.inj hkt]; exact hst)]
          simp [hst, ht]

/-- What a command to core `i` does to core `j`. -/
theorem State.command_core {s : State} {i j : Nat} {c : HostCmd} {k k' : CoreState} (h : s.coreAt j = some k)
    (h' : (s.command i c).2.coreAt j = some k') :
    k' = k ∨
      (j = i ∧ c = .run ∧ ¬ (k.status = .halted ∨ k.status = .faulted) ∧
        k' = { k with status := .running, busy := true }) ∨
      (j = i ∧ c ≠ .run ∧ k.busy = false ∧ k' = (c.act s.params k).2) := by
  have hsame : ∀ {u : State}, u.coreAt j = s.coreAt j → u.coreAt j = some k' → k' = k := fun e hu => by
    rw [e, h] at hu
    exact (Option.some.inj hu).symm
  cases hi : s.coreAt i with
  | none =>
    refine .inl (hsame rfl ?_)
    unfold State.command at h'
    rw [hi] at h'
    exact h'
  | some ki =>
    by_cases hc : c = .run
    · subst hc
      obtain ⟨e, -⟩ | ⟨-, -, -, ⟨-, e⟩ | ⟨hst, t, ht, e⟩⟩ := State.command_run_cases hi
      · rw [e] at h'
        exact .inl (hsame rfl h')
      · rw [e] at h'
        exact .inl (hsame rfl h')
      · rw [e] at h'
        obtain ⟨hcs, hfc, hlen, -⟩ := State.focus_some ht
        have hjt : t.coreAt j = some k := by
          rw [State.coreAt_congr hcs]
          exact h
        rcases State.coreAt_of_same (s := t) (t := (t.setStatus .running).setBusy true) rfl rfl hjt h' with
          rfl | ⟨hj, rfl, rfl⟩
        · exact .inl rfl
        · rw [hi] at hfc
          cases hfc
          exact .inr (.inl ⟨by omega, rfl, hst, rfl⟩)
    · rw [State.command_of_ne_run hi hc, State.serve_eq] at h'
      split at h'
      · exact .inl (hsame rfl h')
      · next hb =>
        simp only [State.coreAt_setCore] at h'
        by_cases e : i = j
        · subst e
          rw [hi] at h
          cases h
          rw [if_pos rfl, if_pos (State.coreAt_lt hi)] at h'
          exact .inr (.inr ⟨rfl, hc, by simpa using hb, (Option.some.inj h').symm⟩)
        · rw [if_neg e] at h'
          exact .inl (hsame rfl h')

/-- R333: `feed` as a command, all of the words or none. -/
theorem CoreState.hostFeed_cases (k : CoreState) (p : Params) (vs : List Word) :
    (withinCap p.inCap (k.inq.length + vs.length) = true ∧
        k.hostFeed p vs = (.ok, { k with inq := k.inq ++ vs })) ∨
      (withinCap p.inCap (k.inq.length + vs.length) = false ∧
        k.hostFeed p vs = (.refused .inputQueueFull, k)) := by
  unfold CoreState.hostFeed CoreState.feed
  cases hw : withinCap p.inCap (k.inq.length + vs.length) with
  | true => exact .inl ⟨rfl, rfl⟩
  | false => exact .inr ⟨rfl, rfl⟩

end Sys2Proof.Machine
end

