-- ==== Sys2Proof/Laws/Memory.lean ====
section
/-! SUPPORT. The laws of memory as a map (spec/20_memory.md, R62, R63, R70) and of its canonical form. -/

namespace Sys2Proof.Machine

/-! ## Canonical form -/

@[simp] theorem Memory.wf_nil : Memory.wf [] = true := rfl

theorem Memory.wf_cons {a : Nat} {v : Word} {m : Memory} :
    Memory.wf ((a, v) :: m) = true ↔ v ≠ 0 ∧ (∀ c ∈ m, a < c.1) ∧ Memory.wf m = true := by
  simp [Memory.wf, and_assoc]

/-- A cell below every listed address reads as 0. -/
theorem Memory.read_of_lt {m : Memory} {a : Nat} (h : ∀ c ∈ m, a < c.1) : Memory.read m a = 0 := by
  induction m with
  | nil => rfl
  | cons c m ih =>
    have hc := h c (by simp)
    simp only [Memory.read]
    rw [if_neg (by omega)]
    exact ih fun c hc => h c (by simp [hc])

/-- In canonical form an address is listed exactly when it does not read as 0. -/
theorem Memory.mem_iff_read {m : Memory} (h : Memory.wf m = true) {c : Cell} :
    c ∈ m ↔ c.2 ≠ 0 ∧ Memory.read m c.1 = c.2 := by
  induction m with
  | nil =>
    refine ⟨fun hc => absurd hc List.not_mem_nil, fun hc => absurd hc.2.symm hc.1⟩
  | cons d m ih =>
    obtain ⟨k, w⟩ := d
    obtain ⟨hw, hlt, hm⟩ := Memory.wf_cons.1 h
    obtain ⟨a, v⟩ := c
    simp only [List.mem_cons, Prod.mk.injEq, Memory.read]
    rw [ih hm]
    by_cases hk : k = a
    · subst hk
      simp only [true_and, if_true]
      constructor
      · rintro (rfl | ⟨h0, h1⟩)
        · exact ⟨hw, rfl⟩
        · rw [Memory.read_of_lt hlt] at h1
          exact absurd h1.symm h0
      · rintro ⟨-, rfl⟩
        exact .inl rfl
    · simp only [hk, if_false]
      constructor
      · rintro (⟨rfl, -⟩ | h1)
        · exact absurd rfl hk
        · exact h1
      · exact .inr

/-! ## Read after write -/

/-- R70: a write leaves every other cell alone, in any memory. -/
theorem Memory.read_write_other {m : Memory} {a b : Nat} (v : Word) (h : b ≠ a) :
    (m.write a v).read b = m.read b := by
  induction m with
  | nil =>
    simp only [Memory.write]
    split
    · rfl
    · simp [Memory.read, h.symm]
  | cons c m ih =>
    obtain ⟨k, w⟩ := c
    simp only [Memory.write]
    split
    · split
      · rfl
      · rw [Memory.read, if_neg h.symm]
    · split
      · next heq =>
        subst heq
        split
        · rw [Memory.read, if_neg h.symm]
        · rw [Memory.read, Memory.read, if_neg h.symm, if_neg h.symm]
      · rw [Memory.read, Memory.read, ih]

/-- R70: a read returns the word last written. -/
theorem Memory.read_write_same {m : Memory} (hm : m.wf = true) (a : Nat) (v : Word) :
    (m.write a v).read a = v := by
  induction m with
  | nil =>
    simp only [Memory.write]
    split
    · next h => simp [Memory.read, h]
    · simp [Memory.read]
  | cons c m ih =>
    obtain ⟨k, w⟩ := c
    obtain ⟨-, hlt, hwf⟩ := Memory.wf_cons.1 hm
    simp only [Memory.write]
    split
    · next hak =>
      split
      · next h =>
        rw [h]
        refine Memory.read_of_lt fun c hc => ?_
        rcases List.mem_cons.1 hc with rfl | hc
        · exact hak
        · exact hak.trans (hlt c hc)
      · simp [Memory.read]
    · split
      · next heq =>
        subst heq
        split
        · next h => rw [h]; exact Memory.read_of_lt hlt
        · simp [Memory.read]
      · next hne => rw [Memory.read, if_neg (Ne.symm hne), ih hwf]

theorem Memory.read_write {m : Memory} (hm : m.wf = true) (a b : Nat) (v : Word) :
    (m.write a v).read b = if b = a then v else m.read b := by
  by_cases h : b = a
  · rw [if_pos h, h, Memory.read_write_same hm]
  · rw [if_neg h, Memory.read_write_other v h]

/-! ## The canonical form is kept -/

/-- Every cell a write leaves was there before, or is the cell written. -/
theorem Memory.mem_write {m : Memory} {a : Nat} {v : Word} {c : Cell} (h : c ∈ m.write a v) :
    c ∈ m ∨ c = (a, v) := by
  induction m with
  | nil =>
    simp only [Memory.write] at h
    split at h
    · simp at h
    · exact .inr (by simpa using h)
  | cons d m ih =>
    obtain ⟨k, w⟩ := d
    simp only [Memory.write] at h
    split at h
    · split at h
      · exact .inl h
      · rcases List.mem_cons.1 h with h | h
        · exact .inr h
        · exact .inl h
    · split at h
      · next heq =>
        subst heq
        split at h
        · exact .inl (by simp [h])
        · rcases List.mem_cons.1 h with h | h
          · exact .inr h
          · exact .inl (by simp [h])
      · rcases List.mem_cons.1 h with h | h
        · exact .inl (by simp [h])
        · rcases ih h with h | h
          · exact .inl (by simp [h])
          · exact .inr h

/-- A write keeps the canonical form. -/
theorem Memory.write_wf {m : Memory} (hm : m.wf = true) (a : Nat) (v : Word) :
    (m.write a v).wf = true := by
  induction m with
  | nil =>
    simp only [Memory.write]
    split
    · rfl
    · next h => exact Memory.wf_cons.2 ⟨h, by simp, rfl⟩
  | cons c m ih =>
    obtain ⟨k, w⟩ := c
    obtain ⟨hw, hlt, hwf⟩ := Memory.wf_cons.1 hm
    simp only [Memory.write]
    split
    · next hak =>
      split
      · exact hm
      · next hv =>
        refine Memory.wf_cons.2 ⟨hv, fun c hc => ?_, hm⟩
        rcases List.mem_cons.1 hc with rfl | hc
        · exact hak
        · exact hak.trans (hlt c hc)
    · next hak =>
      split
      · split
        · exact hwf
        · next hv => exact Memory.wf_cons.2 ⟨hv, hlt, hwf⟩
      · next hne =>
        refine Memory.wf_cons.2 ⟨hw, fun c hc => ?_, ih hwf⟩
        rcases Memory.mem_write hc with hc | rfl
        · exact hlt c hc
        · show k < a
          omega

/-! ## Words from an address on -/

/-- The cells of a boot image lie in its range. -/
theorem Memory.mem_ofWords {vs : List Word} {a : Nat} {c : Cell} (h : c ∈ Memory.ofWords a vs) :
    a ≤ c.1 ∧ c.1 < a + vs.length := by
  induction vs generalizing a with
  | nil => simp [Memory.ofWords] at h
  | cons v vs ih =>
    simp only [Memory.ofWords] at h
    split at h
    · have := ih h
      simp only [List.length_cons]
      omega
    · rcases List.mem_cons.1 h with rfl | h
      · simp
      · have := ih h
        simp only [List.length_cons]
        omega

/-- A boot image is in canonical form. -/
theorem Memory.ofWords_wf (a : Nat) (vs : List Word) : (Memory.ofWords a vs).wf = true := by
  induction vs generalizing a with
  | nil => rfl
  | cons v vs ih =>
    simp only [Memory.ofWords]
    split
    · exact ih _
    · next hv =>
      refine Memory.wf_cons.2 ⟨hv, fun c hc => ?_, ih _⟩
      have := (Memory.mem_ofWords hc).1
      omega

/-- R400: cell `a + i` of a boot image holds word `i`, and every other cell reads as 0. -/
theorem Memory.read_ofWords (a : Nat) (vs : List Word) (b : Nat) :
    (Memory.ofWords a vs).read b = if a ≤ b then vs.getD (b - a) 0 else 0 := by
  induction vs generalizing a with
  | nil => simp [Memory.ofWords, Memory.read]
  | cons v vs ih =>
    have hrec : (Memory.ofWords (a + 1) vs).read b =
        if a + 1 ≤ b then vs.getD (b - (a + 1)) 0 else 0 := ih (a + 1)
    simp only [Memory.ofWords]
    rcases Nat.lt_trichotomy b a with hlt | rfl | hgt
    · have h2 : ¬ a + 1 ≤ b := by omega
      rw [if_neg (show ¬ a ≤ b by omega)]
      split <;> simp [Memory.read, hrec, h2, Nat.ne_of_gt hlt]
    · split
      · next hv => simp [hrec, hv]
      · simp [Memory.read]
    · obtain ⟨d, rfl⟩ : ∃ d, b = a + 1 + d := ⟨b - (a + 1), by omega⟩
      have e : a + 1 + d - a = d + 1 := by omega
      have hne : a ≠ a + 1 + d := by omega
      rw [if_pos (show a ≤ a + 1 + d by omega)]
      split <;> simp [Memory.read, hrec, e, hne]

/-- Storing a sequence of words keeps the canonical form. -/
theorem Memory.writeWords_wf {m : Memory} (hm : m.wf = true) (a : Nat) (vs : List Word) :
    (m.writeWords a vs).wf = true := by
  induction vs generalizing m a with
  | nil => exact hm
  | cons v vs ih => exact ih (Memory.write_wf hm a v) (a + 1)

end Sys2Proof.Machine
end

