-- ==== Sys2Proof/Laws/Invariant.lean ====
section
/-! SUPPORT. The invariant of Safety.lean, kept by each operation on one core and by the scheduler's transfer
(spec/10_state.md, R31, R37 to R41; spec/60_exceptions.md, R302, R352). -/

namespace Sys2Proof.Machine

/-! ## One core -/

theorem withinCap_mono {cap : Option Nat} {n m : Nat} (h : withinCap cap n = true) (hm : m ≤ n) :
    withinCap cap m = true := by
  unfold withinCap at *
  cases cap with
  | none => rfl
  | some c => simp at *; omega

/-- A word stored at a writable address keeps memory fitting. -/
theorem Memory.fits_write {m : Memory} {p : Params} (h : m.fits p) {a : Nat} (ha : a < p.memLimit) (v : Word) :
    (m.write a v).fits p := by
  refine ⟨Memory.write_wf h.1 a v, fun c hc => ?_⟩
  rcases Memory.mem_write hc with hc | ⟨rfl, -⟩
  · exact h.2 c hc
  · exact ha

/-- R302: the fault action keeps a core's invariant. -/
theorem CoreState.Inv.raise {k : CoreState} {p : Params} (h : k.Inv p) {c : FaultCause} (hc : c.fits p) :
    (k.raise c).Inv p where
  mem_fits := h.mem_fits
  outCur_le := h.outCur_le
  inq_le := h.inq_le
  outLog_le := h.outLog_le
  fault_fits := by
    rw [CoreState.raise_fault]
    split
    · exact h.fault_fits
    · exact .inr ⟨_, _, _, _, rfl, hc⟩
  faulted_iff := by
    rw [CoreState.raise_fault]
    split
    · next hv => simp [hv]
    · simp

/-- R137: the engine's step keeps the invariant of the core it steps. -/
theorem State.engineStep_inv {s t : State} (h : s.toCoreState.Inv s.params) (hr : s.status = .running)
    (hst : s.engineStep = .next t) : t.toCoreState.Inv s.params := by
  have hv : s.fault.valid = false := by
    have h' : s.status = .faulted ↔ s.fault.valid = true := h.faulted_iff
    rw [hr] at h'
    simpa using h'
  obtain ⟨i, -, he⟩ | ⟨c, hc, rfl⟩ := State.engineStep_next hst
  · obtain ⟨f, a, b, dst, d, -, hd, -, rfl⟩ | ⟨dst, -, -, rfl⟩ | ⟨dst, d, x, xs, -, hq, hd, -, rfl⟩ |
      ⟨a, -, -, hf, rfl⟩ | ⟨a, b, -, -, rfl | ⟨-, rfl⟩⟩ | ⟨a, v, -, -, rfl⟩ | ⟨-, rfl⟩ := effect_cases he
    · exact ⟨Memory.fits_write h.mem_fits hd.2.2 _, h.outCur_le, h.inq_le, h.outLog_le, h.fault_fits, h.faulted_iff⟩
    · exact ⟨h.mem_fits, h.outCur_le, h.inq_le, h.outLog_le, h.fault_fits, by simp [hv]⟩
    · refine ⟨Memory.fits_write h.mem_fits hd.2.2 _, h.outCur_le, ?_, h.outLog_le, h.fault_fits, h.faulted_iff⟩
      have := h.inq_le
      rw [hq] at this
      exact withinCap_mono this (by simp)
    · refine ⟨h.mem_fits, ?_, h.inq_le, ?_, h.fault_fits, h.faulted_iff⟩
      · have := h.outCur_le
        simp; omega
      · have := h.outLog_le
        unfold State.outFull at hf
        unfold withinCap at *
        simp
        cases hp : s.params.outCap with
        | none => rfl
        | some c => simp [hp] at *; omega
    · exact ⟨h.mem_fits, h.outCur_le, h.inq_le, h.outLog_le, h.fault_fits, h.faulted_iff⟩
    · exact ⟨h.mem_fits, h.outCur_le, h.inq_le, h.outLog_le, h.fault_fits, h.faulted_iff⟩
    · exact ⟨h.mem_fits, h.outCur_le, h.inq_le, h.outLog_le, h.fault_fits, h.faulted_iff⟩
    · exact ⟨h.mem_fits, h.outCur_le, h.inq_le, h.outLog_le, h.fault_fits, by simp [hv]⟩
  · exact h.raise hc

/-- R334 to R337: a command other than `run` keeps its core's invariant, and BUSY. -/
theorem CoreState.Inv.act {k : CoreState} {p : Params} (h : k.Inv p) (c : HostCmd) :
    (c.act p k).2.Inv p ∧ (c.act p k).2.busy = k.busy := by
  cases c with
  | run => exact ⟨h, rfl⟩
  | feed vs =>
    simp only [HostCmd.act]
    obtain ⟨hw, e⟩ | ⟨-, e⟩ := CoreState.hostFeed_cases k p vs
    · rw [e]
      exact ⟨⟨h.mem_fits, h.outCur_le, by simpa using hw, h.outLog_le, h.fault_fits, h.faulted_iff⟩, rfl⟩
    · rw [e]
      exact ⟨h, rfl⟩
  | takeOutput =>
    simp only [HostCmd.act]
    unfold CoreState.takeOutput
    split
    · next x hx =>
      exact ⟨⟨h.mem_fits, (List.getElem?_eq_some_iff.1 hx).1, h.inq_le, h.outLog_le, h.fault_fits, h.faulted_iff⟩, rfl⟩
    · exact ⟨h.raise trivial, rfl⟩
  | outputs => exact ⟨h, rfl⟩
  | memoryAt a =>
    simp only [HostCmd.act]
    unfold CoreState.memoryAt
    split
    · next ha => exact ⟨h.raise ha, rfl⟩
    · exact ⟨h, rfl⟩
  | drain => exact ⟨⟨h.mem_fits, Nat.le_refl _, h.inq_le, h.outLog_le, h.fault_fits, h.faulted_iff⟩, rfl⟩

/-! ## The cores of the block -/

/-- Storing back a core keeps what holds of every core. -/
theorem State.forall_setCore {s : State} {i : Nat} {k : CoreState} {P : CoreState → Prop} (h : ∀ c ∈ s.cores, P c)
    (hk : P k) : ∀ c ∈ (s.setCore i k).cores, P c := by
  intro c hc
  rw [State.cores_setCore] at hc
  rcases List.mem_or_eq_of_mem_set hc with hc | rfl
  · exact h c hc
  · exact hk

/-- R352: a transfer keeps every core's invariant, and every core's BUSY false. -/
theorem State.transfer_inv {s : State} (i : Nat) (h : ∀ k ∈ s.cores, k.Inv s.params ∧ k.busy = false) :
    ∀ k ∈ (s.transfer i).cores, k.Inv s.params ∧ k.busy = false := by
  cases hk : s.coreAt i with
  | none =>
    have : s.transfer i = s := by unfold State.transfer; rw [hk]
    rw [this]
    exact h
  | some k =>
    have hik := h k (State.mem_cores_of_coreAt hk)
    have h1 := State.forall_setCore (i := i) (k := k.drained) h ⟨(hik.1.act .drain).1, hik.2⟩
    obtain ⟨t, ht, ⟨hw, e⟩ | ⟨-, e⟩⟩ := State.transfer_cases hk
    · rw [e]
      have ht' := h1 t (State.mem_cores_of_coreAt ht)
      refine State.forall_setCore h1 ⟨⟨ht'.1.mem_fits, ht'.1.outCur_le, by simpa using hw, ht'.1.outLog_le,
        ht'.1.fault_fits, ht'.1.faulted_iff⟩, ht'.2⟩
    · rw [e]
      exact h1

/-- R351: what the scheduler's loop body leaves of the block, and that it keeps every core's invariant. -/
theorem State.afterRun_inv {s : State} (h : ∀ k ∈ s.cores, k.Inv s.params ∧ k.busy = false) :
    (∀ k ∈ s.afterRun.cores, k.Inv s.params ∧ k.busy = false) ∧ s.afterRun.params = s.params ∧
      s.afterRun.netN = s.netN ∧ (s.afterRun.cur = s.cur ∨ s.afterRun.cur = (s.cur + 1) % s.netN) := by
  unfold State.afterRun
  split
  · exact ⟨h, rfl, rfl, .inl rfl⟩
  · obtain ⟨hn, hp, -⟩ := s.transfer_block s.cur
    exact ⟨State.transfer_inv s.cur h, hp, hn, .inr rfl⟩

end Sys2Proof.Machine
end

