-- ==== Sys2Proof/Laws/PerInstr.lean ====
section
/-! SUPPORT. The statements made of every instruction as syntax, one lemma for each constructor (LAWS.json). -/

namespace Sys2Proof.Laws.EncodedLength

/-- R96, R103: the encoding has as many words as the opcode's length, one more than the operands. -/
def Statement (i : Instr) : Prop := (encode i).length = i.length ∧ i.length = i.operands.length + 1

theorem add (a b dst : Operand) : Statement (.add a b dst) := ⟨rfl, rfl⟩
theorem mul (a b dst : Operand) : Statement (.mul a b dst) := ⟨rfl, rfl⟩
theorem inp (dst : Operand) : Statement (.inp dst) := ⟨rfl, rfl⟩
theorem out (a : Operand) : Statement (.out a) := ⟨rfl, rfl⟩
theorem jt (a b : Operand) : Statement (.jt a b) := ⟨rfl, rfl⟩
theorem jf (a b : Operand) : Statement (.jf a b) := ⟨rfl, rfl⟩
theorem lt (a b dst : Operand) : Statement (.lt a b dst) := ⟨rfl, rfl⟩
theorem eq (a b dst : Operand) : Statement (.eq a b dst) := ⟨rfl, rfl⟩
theorem arb (a : Operand) : Statement (.arb a) := ⟨rfl, rfl⟩
theorem hlt : Statement .hlt := ⟨rfl, rfl⟩

end Sys2Proof.Laws.EncodedLength
end

