-- ==== Sys2Proof/Tests/Slice0.lean ====
section
/-! SUPPORT. Tests, each with the source of its expected result, and for every statement with hypotheses a state and
operands that meet them. -/

namespace Sys2Proof.Tests

open Sys2Proof Sys2Proof.Machine

/-! ## Helpers -/

/-- The state after a step, an instruction or a transition; the reset state where there is none. -/
def after : Result → State
  | .next t => t
  | .fault _ => State.reset
  | .refused _ => State.reset

/-- One core, running, with the words given from address `ip` on. -/
def runningAt (ip : Word) (ws : List Word) : State :=
  { State.reset with mem := Memory.ofWords ip.toNat ws, ip := ip, busy := true }

/-- One core, running, with the words given from address 0 on. -/
def running (ws : List Word) : State := runningAt 0 ws

/-- A Position, an Immediate and a Relative operand. -/
def pos (r : Word) : Operand := { mode := .position, raw := r }
def imm (r : Word) : Operand := { mode := .immediate, raw := r }
def rel (r : Word) : Operand := { mode := .relative, raw := r }

/-- 2^63 - 1 and -2^63. -/
def top : Word := 9223372036854775807
def bottom : Word := -9223372036854775808

/-- The reason, ip, addr and operand of a fault. -/
def faultOf (s : State) : Status × Option FaultReason × Option Word × Option Int × Option (Fin 3) :=
  (s.status, s.fault.reason, s.fault.ip, s.fault.addr, s.fault.operand)

/-! ## WellFormed smoke (R100, R111): an ill-formed term for each check -/

theorem test_wf_add_refused : (Instr.add (pos 0) (pos 0) (imm 0)).wf = false := by decide
theorem test_wf_mul_refused : (Instr.mul (imm 0) (imm 0) (imm 0)).wf = false := by decide
theorem test_wf_in_refused : (Instr.inp (imm 0)).wf = false := by decide
theorem test_wf_lt_refused : (Instr.lt (rel 0) (rel 0) (imm 0)).wf = false := by decide
theorem test_wf_eq_refused : (Instr.eq (pos 0) (rel 0) (imm 0)).wf = false := by decide
theorem test_wf_accepted :
    ((Instr.add (imm 0) (imm 0) (rel 0)).wf && (Instr.inp (pos 0)).wf && (Instr.out (imm 0)).wf) = true := by decide

/-! ## Decoding words written out from the spec (95_test_vectors.md, V1 to V9 and 2.1) -/

theorem test_decode_add : decode [22201, 0, 1, 2] = .ok (.add (rel 0) (rel 1) (rel 2), []) := by decide
theorem test_decode_mul : decode [1002, 4, 3, 4, 33] = .ok (.mul (pos 4) (imm 3) (pos 4), [33]) := by decide
theorem test_decode_in : decode [203, -8] = .ok (.inp (rel (-8)), []) := by decide
theorem test_decode_out : decode [104, 1125899906842624] = .ok (.out (imm 1125899906842624), []) := by decide
theorem test_decode_jt : decode [1105, 1, -7] = .ok (.jt (imm 1) (imm (-7)), []) := by decide
theorem test_decode_jf : decode [1006, 101, 0] = .ok (.jf (pos 101) (imm 0), []) := by decide
theorem test_decode_lt : decode [21107, 3, 8, 5] = .ok (.lt (imm 3) (imm 8) (rel 5), []) := by decide
theorem test_decode_eq : decode [1008, 100, 16, 101] = .ok (.eq (pos 100) (imm 16) (pos 101), []) := by decide
theorem test_decode_arb : decode [209, -1] = .ok (.arb (rel (-1)), []) := by decide
theorem test_decode_hlt : decode [99] = .ok (.hlt, []) := by decide

/-- 2.1: 199 and 1099 halt, 100001 is ADD, and 103 decodes with its illegal write mode. -/
theorem test_decode_unused_digits :
    decode [199] = .ok (.hlt, []) ∧ decode [1099] = .ok (.hlt, []) ∧
      decode [100001, 0, 0, 0] = .ok (.add (pos 0) (pos 0) (pos 0), []) ∧
      decode [103, 0] = .ok (.inp (imm 0), []) := by decide

/-- 2.1: the words that fault, each with its reason. -/
theorem test_decode_rejects :
    (decodeHead 0 = .error .invalidOpcode ∧ decodeHead 10 = .error .invalidOpcode ∧
      decodeHead 98 = .error .invalidOpcode ∧ decodeHead (-1) = .error .invalidOpcode) ∧
      decodeHead 301 = .error .invalidMode ∧ decodeHead 399 = .error .invalidMode := by decide

/-- R102: the encoder gives the words of V1. -/
theorem test_encode_eq : encode (.eq (pos 100) (imm 16) (pos 101)) = [1008, 100, 16, 101] := by decide

/-- R127: the bits of a table row, and the operand words of zeros above them. -/
theorem test_decode_table_word : decodeTableWord 64 1008 = some (.eq (pos 0) (imm 0) (pos 0)) := by decide

/-! ## One step of each instruction (95_test_vectors.md) -/

/-- 2.3: `INT64_MAX + 1 = INT64_MIN`. -/
theorem test_add_wraps : (after (step (running [1101, top, 1, 5, 99]))).mem.read 5 = bottom := by decide
/-- 2.3: `[1,5,5,5,99,21]` doubles MEM[5], and IP goes to 4. -/
theorem test_add_doubles :
    let t := after (step (running [1, 5, 5, 5, 99, 21]))
    t.mem.read 5 = 42 ∧ t.ip = 4 := by decide
/-- 2.3: `3037000500 * 3037000500` wraps. -/
theorem test_mul_wraps :
    (after (step (running [1102, 3037000500, 3037000500, 5]))).mem.read 5 = -9223372036709301616 := by decide
/-- V3: the product becomes the next instruction. -/
theorem test_mul_writes_the_next_instruction :
    let t := after (step (running [1002, 4, 3, 4, 33]))
    t.mem.read 4 = 99 ∧ t.ip = 4 := by decide
/-- 2.5: `[3,1,99]` with input 5 writes its own operand. -/
theorem test_in_consumes :
    let t := after (step { running [3, 1, 99] with inq := [5] })
    t.mem.read 1 = 5 ∧ t.inq = [] ∧ t.ip = 2 := by decide
/-- 2.5: with INQ empty only STATUS changes. -/
theorem test_in_blocks :
    after (step (running [3, 0, 99])) = { running [3, 0, 99] with status := .waitingForInput } := by decide
/-- V4: 2^50 is appended exactly. -/
theorem test_out_appends :
    let t := after (step (running [104, 1125899906842624, 99]))
    t.outLog = [1125899906842624] ∧ t.ip = 2 := by decide
/-- 2.5: OUT into a full log (`OUT_CAP = 1`). -/
theorem test_out_full :
    faultOf (after (step { running [104, 2] with
      outLog := [1], params := { Params.sourceFaithful with outCap := some 1 } })) =
      (.faulted, some .queueOverflow, some 0, none, none) := by decide
/-- 2.6: INT64_MIN is true. -/
theorem test_jt_taken : (after (step (running [1105, bottom, 4]))).ip = 4 := by decide
/-- 2.6: JT falls through on 0. -/
theorem test_jt_not_taken : (after (step (running [1105, 0, 4]))).ip = 3 := by decide
/-- 2.6: JF jumps on 0. -/
theorem test_jf_taken : (after (step (running [1106, 0, 4]))).ip = 4 := by decide
/-- 2.6: JF falls through on 7. -/
theorem test_jf_not_taken : (after (step (running [1106, 7, 4]))).ip = 3 := by decide
/-- 2.4: the comparison is signed, `-1 < 0`. -/
theorem test_lt_signed : (after (step (running [1107, -1, 0, 5, 99, -1]))).mem.read 5 = 1 := by decide
/-- 2.4: `4 < 4` gives 0. -/
theorem test_lt_equal : (after (step (running [1107, 4, 4, 5, 99, -1]))).mem.read 5 = 0 := by decide
/-- 2.4: `-1` and INT64_MAX differ. -/
theorem test_eq_differs : (after (step (running [1108, -1, top, 5, 99, -1]))).mem.read 5 = 0 := by decide
/-- 2.4: `0 = 0` gives 1. -/
theorem test_eq_equal : (after (step (running [1108, 0, 0, 5, 99, -1]))).mem.read 5 = 1 := by decide
/-- 2.7: RB 5, then `209,-1` adds MEM[4] = 99. -/
theorem test_arb_relative :
    let t := after (step { runningAt 2 [209, -1, 99] with rb := 5 })
    t.rb = 104 ∧ t.ip = 4 := by decide
/-- 2.7: INT64_MAX plus 1 wraps. -/
theorem test_arb_wraps : (after (step { running [109, 1] with rb := top })).rb = bottom := by decide
/-- 2.8: HLT changes STATUS alone. -/
theorem test_hlt_halts : after (step (running [99])) = { running [99] with status := .halted } := by decide
/-- 2.8: 399 is no halt. -/
theorem test_hlt_bad_mode :
    faultOf (after (step (running [399]))) = (.faulted, some .invalidMode, some 0, none, none) := by decide

/-! ## Faults of one step (95_test_vectors.md, V9, 2.2, 2.5, 2.6, 2.9) -/

/-- V9: an Immediate destination. MEM[0] is still 11101. -/
theorem test_fault_write_mode :
    let t := after (step (running [11101, 2, 3, 0, 99]))
    faultOf t = (.faulted, some .invalidWriteMode, some 0, none, some 2) ∧ t.mem.read 0 = 11101 := by decide
/-- 2.2: the Relative sum 2^63. -/
theorem test_fault_relative_overflow :
    faultOf (after (step { runningAt 2 [204, 1, 99] with rb := top })) =
      (.faulted, some .addressOverflow, some 2, some 9223372036854775808, some 0) := by decide
/-- 2.2: the Relative sum -2^63 - 1 does not wrap. -/
theorem test_fault_relative_below :
    faultOf (after (step { runningAt 2 [204, -1, 99] with rb := bottom })) =
      (.faulted, some .negativeAddress, some 2, some (-9223372036854775809), some 0) := by decide
/-- 2.2: a write at MEM_LIMIT, here 100, and one just below it. -/
theorem test_fault_capacity :
    let p := { Params.sourceFaithful with memLimit := 100 }
    faultOf (after (step { running [1101, 2, 3, 100, 99] with params := p })) =
        (.faulted, some .capacityExceeded, some 0, some 100, some 2) ∧
      (after (step { running [1101, 2, 3, 99, 99] with params := p })).mem.read 99 = 5 := by decide
/-- 2.5: an IN that would fault does not block. -/
theorem test_fault_in_before_blocking :
    faultOf (after (step (running [103, 0, 99]))) = (.faulted, some .invalidWriteMode, some 0, none, some 0) := by
  decide
/-- 2.6: after a jump to -7 the fetch faults there. -/
theorem test_fault_fetch_negative :
    faultOf (after (step (after (step (running [1105, 1, -7, 99]))))) =
      (.faulted, some .negativeAddress, some (-7), some (-7), none) := by decide
/-- 2.9: the operand range check. -/
theorem test_fault_operand_range :
    faultOf (after (step (runningAt 9223372036854775806 [1101]))) =
      (.faulted, some .addressOverflow, some 9223372036854775806, some 9223372036854775809, none) := by decide
/-- 2.9: `seqNext` of ADD. -/
theorem test_fault_next_ip :
    faultOf (after (step (runningAt 9223372036854775804 [1101, 1, 2, 5]))) =
      (.faulted, some .addressOverflow, some 9223372036854775804, some 9223372036854775808, none) := by decide
/-- 2.9: `seqNext` of an IN that would block. -/
theorem test_fault_next_ip_of_in :
    faultOf (after (step (runningAt 9223372036854775806 [3, 0]))) =
      (.faulted, some .addressOverflow, some 9223372036854775806, some 9223372036854775808, none) := by decide
/-- 2.9: HLT at the last address halts. -/
theorem test_hlt_at_the_top : (after (step (runningAt top [99]))).status = .halted := by decide

/-! ## Reset, host and network -/

/-- R400, R48: construction with an empty program is the reset state. -/
theorem test_reset_is_construction :
    State.construct Params.sourceFaithful [] [] = Except.ok State.reset := by decide
/-- 2.8: an empty program faults at its first step. -/
theorem test_reset_runs : faultOf (after (step (State.reset.command 0 .run).2)) =
    (.faulted, some .invalidOpcode, some 0, none, none) := by decide
/-- The words given stand where the next step fetches: row MUL of the table, with operand words of zeros. -/
theorem test_with_fetch_word :
    step (State.reset.withFetchWord 64 11102) =
      exec (.mul (imm 0) (imm 0) (imm 0)) (State.reset.withFetchWord 64 11102) ∧
    step (State.reset.withFetchWord 64 4) = exec (.out (pos 0)) (State.reset.withFetchWord 64 4) := ⟨rfl, rfl⟩
/-- 2.5: `takeOutput` on an empty buffer faults a halted core at IP 4, and `outputs` still answers. -/
theorem test_take_output :
    let s := { running [104, 5, 104, 6, 99] with ip := 4, status := .halted, busy := false, outLog := [5, 6] }
    let u := (s.command 0 .takeOutput).2
    let v := (u.command 0 .takeOutput).2
    let w := (v.command 0 .takeOutput).2
    (s.command 0 .takeOutput).1 = .word 5 ∧ (u.command 0 .takeOutput).1 = .word 6 ∧
      faultOf w = (.faulted, some .noOutputAvailable, some 4, none, none) ∧
      (w.command 0 .outputs).1 = .words [5, 6] ∧ (w.command 0 (.memoryAt 0)).1 = .word 104 := by decide
/-- R334, R336, R311: an already Faulted core keeps its first fault, and the command returns the fault it raised. -/
theorem test_faulted_core_replies :
    let s := { (after (step (running [0]))) with busy := false }
    let u := s.command 0 .takeOutput
    let v := s.command 0 (.memoryAt (-1))
    u.1 = .faulted { reason := .noOutputAvailable, addr := none, operand := none } ∧
      v.1 = .faulted { reason := .negativeAddress, addr := some (-1), operand := none } ∧
      u.2.fault.reason = some .invalidOpcode ∧ v.2.fault.reason = some .invalidOpcode := by decide
/-- 2.10: two cores that halt with no output: RUNS 2, and no answer. -/
theorem test_network_no_answer :
    (match State.network Params.sourceFaithful [99] [] [[]] with
      | .ok s => (s.schedule.2.runToReturn 20).map fun t => (t.nstatus, t.runs)
      | .error _ => none) = some (.failed .noAnswer, 2) := by decide

/-! ## Witnesses: states and operands that meet the hypotheses of each statement, clause by clause -/

theorem witness_EncodeOfDecodeIsTheCanonicalWords :
    decode (204 :: [-1, 99]) = .ok (.out (rel (-1)), [99]) ∧ (204 : Word).toNat < 100000 ∧
      ∀ k < 3, (Instr.out (rel (-1))).operands.length ≤ k → digit (k + 2) 204 = 0 := by decide

theorem witness_HighDigitsAreIgnored :
    0 ≤ (1 : Word).toInt ∧ 0 ≤ (100001 : Word).toInt ∧ (1 : Word).toNat % 100000 = (100001 : Word).toNat % 100000 := by
  decide

theorem witness_DecoderOutcomes :
    ((-1 : Word).toInt < 0 ∧ bottom.toInt < 0) ∧
      (0 ≤ (0 : Word).toInt ∧ (0 : Word).toNat % 100 ∉ [1, 2, 3, 4, 5, 6, 7, 8, 9, 99]) ∧
      (0 ≤ (98 : Word).toInt ∧ (98 : Word).toNat % 100 ∉ [1, 2, 3, 4, 5, 6, 7, 8, 9, 99]) ∧
      (0 ≤ (399 : Word).toInt ∧ (399 : Word).toNat % 100 ∈ [1, 2, 3, 4, 5, 6, 7, 8, 9, 99] ∧
        ∃ k ∈ [2, 3, 4], 2 < digit k 399) ∧
      (0 ≤ (22299 : Word).toInt ∧ (22299 : Word).toNat % 100 ∈ [1, 2, 3, 4, 5, 6, 7, 8, 9, 99] ∧
        ∀ k ∈ [2, 3, 4], digit k 22299 ≤ 2) := by decide

theorem witness_DecodeTakesTheLengthOfOp :
    decode [1, 5, 5, 5, 99] = .ok (.add (pos 5) (pos 5) (pos 5), [99]) ∧
      decode [1106, 0, 4] = .ok (.jf (imm 0) (imm 4), []) ∧ decode [3, 0, 99] = .ok (.inp (pos 0), [99]) ∧
      decode [99, 3] = .ok (.hlt, [3]) := by decide

theorem witness_StepRunsTheDecodedInstruction :
    let s := runningAt 9223372036854775806 [104, 5]
    s.busy = true ∧ s.status = .running ∧ 0 ≤ s.ip.toInt ∧ s.ip.toInt + (2 : Nat) - 1 ≤ addrMax ∧
      decode ((List.range 2).map fun k => s.mem.read (s.ip.toNat + k)) = .ok (.out (imm 5), []) := by decide

theorem witness_FetchFaults :
    (let s := runningAt (-1) [];
      s.busy = true ∧ s.status = .running ∧ s.ip.toInt < 0) ∧
      let s := running []
      s.busy = true ∧ s.status = .running ∧ 0 ≤ s.ip.toInt ∧ s.mem.read s.ip.toNat = 0 := by decide

/-- Words the decoder rejects for their opcode. -/
theorem witness_FetchFaults_opcode :
    decodeWord (-1) = .error { reason := .invalidOpcode, addr := none, operand := none } ∧
      decodeWord 10 = .error { reason := .invalidOpcode, addr := none, operand := none } ∧
      decodeWord 98 = .error { reason := .invalidOpcode, addr := none, operand := none } := by decide

/-- Words the decoder rejects for a mode digit, the second one in a digit HLT does not use. -/
theorem witness_FetchFaults_mode :
    decodeWord 301 = .error { reason := .invalidMode, addr := none, operand := none } ∧
      decodeWord 30099 = .error { reason := .invalidMode, addr := none, operand := none } := by decide

/-- A rejected word at the top of memory, where its operands would lie out of range too. -/
theorem witness_FetchFaults_decoder :
    let s := runningAt top [301]
    s.busy = true ∧ s.status = .running ∧ 0 ≤ s.ip.toInt ∧
      decodeWord (s.mem.read s.ip.toNat) = .error { reason := .invalidMode, addr := none, operand := none } := by
  decide

theorem witness_IpRangeChecks_operands :
    let s := runningAt 9223372036854775806 [1101]
    let h : Head := { op := .add, a := .immediate, b := .immediate, c := .position }
    s.busy = true ∧ s.status = .running ∧ 0 ≤ s.ip.toInt ∧ decodeHead (s.mem.read s.ip.toNat) = .ok h ∧
      addrMax < s.ip.toInt + h.op.length - 1 := by decide

theorem witness_IpRangeChecks_next :
    (let s := runningAt 9223372036854775804 [];
      s.readable (imm 1) ∧ s.readable (pos 2) ∧ s.writableAt (pos 5) 5 ∧ ¬ s.continues 4) ∧
      (let s := runningAt 9223372036854775806 [];
        s.writableAt (pos 0) 0 ∧ s.readable (rel 1) ∧ ¬ s.continues 2) ∧
      let s := runningAt 9223372036854775805 []
      s.readable (imm 0) ∧ s.readable (imm 4) ∧ ¬ s.continues 3 ∧ s.value (imm 0) = 0 ∧ s.value (imm 1) ≠ 0 := by
  decide

theorem witness_ResolverByMode :
    let s := { State.reset with rb := top, params := { Params.sourceFaithful with memLimit := 100 } }
    (-1 : Word).toInt < 0 ∧ addrMax < s.rb.toInt + (1 : Word).toInt ∧
      (0 ≤ s.rb.toInt + (0 : Word).toInt ∧ s.rb.toInt + (0 : Word).toInt ≤ addrMax ∧
        (s.params.memLimit : Int) ≤ s.rb.toInt + (0 : Word).toInt) ∧
      (0 ≤ (100 : Word).toInt ∧ (100 : Word).toInt ≤ addrMax ∧ (s.params.memLimit : Int) ≤ (100 : Word).toInt) ∧
      (0 ≤ (99 : Word).toInt ∧ (99 : Word).toInt ≤ addrMax ∧ (99 : Word).toInt < s.params.memLimit) := by decide

theorem witness_RelativeSumsNeverWrap :
    bottom.toInt + (-1 : Word).toInt < int64Min ∧ ¬ bottom.toInt + (0 : Word).toInt < int64Min := by decide

/-- A state at the last address where an instruction of four words can continue. -/
def atTheEdge : State := { runningAt 9223372036854775803 [] with mem := [(0, 7), (3, -3)], rb := 1 }

theorem witness_AddStoresTheWrappedSum :
    atTheEdge.readable (pos 0) ∧ atTheEdge.readable (rel 2) ∧ atTheEdge.writableAt (pos top) 9223372036854775807 ∧
      atTheEdge.continues 4 := by decide

theorem witness_MulStoresTheWrappedProduct :
    atTheEdge.readable (imm 2) ∧ atTheEdge.readable (pos 3) ∧ atTheEdge.writableAt (rel (-1)) 0 ∧
      atTheEdge.continues 4 := by decide

theorem witness_LtStoresTheSignedComparison :
    atTheEdge.readable (pos 0) ∧ atTheEdge.readable (rel 2) ∧ atTheEdge.writableAt (pos 3) 3 ∧ atTheEdge.continues 4 ∧
      (atTheEdge.value (rel 2)).toInt < (atTheEdge.value (pos 0)).toInt ∧
      (atTheEdge.value (pos 0)).toInt ≤ (atTheEdge.value (imm 7)).toInt := by decide

theorem witness_EqStoresTheEquality :
    atTheEdge.readable (pos 0) ∧ atTheEdge.readable (rel 2) ∧ atTheEdge.writableAt (pos 0) 0 ∧ atTheEdge.continues 4 ∧
      atTheEdge.value (pos 0) = atTheEdge.value (imm 7) ∧ atTheEdge.value (pos 0) ≠ atTheEdge.value (rel 2) := by decide

theorem witness_InTakesTheFrontOrBlocks :
    atTheEdge.writableAt (rel 0) 1 ∧ atTheEdge.continues 2 ∧ atTheEdge.inq = [] ∧
      ({ atTheEdge with inq := [4, 5] } : State).inq = 4 :: [5] := by decide

theorem witness_OutAppendsItsValue :
    let s := { atTheEdge with outLog := [1], params := { Params.sourceFaithful with outCap := some 1 } }
    s.readable (rel 2) ∧ s.continues 2 ∧ s.params.outCap = some s.outLog.length ∧
      atTheEdge.params.outCap ≠ some atTheEdge.outLog.length ∧
      ({ s with outLog := [] } : State).params.outCap ≠ some 0 := by decide

theorem witness_JtJumpsOnNonZero :
    atTheEdge.readable (pos 0) ∧ atTheEdge.readable (imm (-7)) ∧ atTheEdge.value (pos 0) ≠ 0 ∧
      atTheEdge.value (pos 1) = 0 ∧ atTheEdge.continues 3 := by decide

theorem witness_JfJumpsOnZero :
    atTheEdge.readable (rel 0) ∧ atTheEdge.readable (pos 3) ∧ atTheEdge.value (rel 0) = 0 ∧
      atTheEdge.value (rel 2) ≠ 0 ∧ atTheEdge.continues 3 := by decide

theorem witness_ArbAddsToTheRelativeBase : atTheEdge.readable (rel 2) ∧ atTheEdge.continues 2 := by decide

/-- RB at the top of the range, and 100 writable cells. -/
def farBase : State := { atTheEdge with rb := top, params := { Params.sourceFaithful with memLimit := 100 } }

theorem witness_StoringInstructionsReportTheFirstFault :
    (Instr.mul (pos 0) (imm 1) (imm 0)).rrw = some (mulWords, pos 0, imm 1, imm 0) ∧
      farBase.effAddr (pos (-1)) = some (-1) ∧ farBase.effAddr (rel 1) = some 9223372036854775808 ∧
      farBase.readable (pos 0) ∧ farBase.readable (imm 1) ∧ farBase.effAddr (imm 0) = none ∧
      farBase.effAddr (pos 100) = some 100 ∧ (farBase.params.memLimit : Int) ≤ 100 := ⟨rfl, by decide⟩

theorem witness_InFaultsBeforeItBlocks :
    farBase.effAddr (imm 0) = none ∧ farBase.effAddr (pos (-1)) = some (-1) ∧
      farBase.effAddr (rel 1) = some 9223372036854775808 ∧ farBase.effAddr (rel 0) = some addrMax ∧
      (farBase.params.memLimit : Int) ≤ addrMax ∧
      (let s := { farBase with ip := 9223372036854775806 };
        s.writableAt (pos 99) 99 ∧ ¬ s.continues 2) := by decide

theorem witness_ReadingInstructionsReportTheFirstFault :
    farBase.effAddr (pos (-1)) = some (-1) ∧ farBase.effAddr (rel 1) = some 9223372036854775808 ∧
      farBase.readable (pos 0) := by decide

theorem witness_FrameOfTheStoringInstructions :
    (Instr.add (pos 0) (pos 3) (pos 5)).rrw = some (addWords, pos 0, pos 3, pos 5) ∧
      ∃ t, exec (.add (pos 0) (pos 3) (pos 5)) atTheEdge = .next t ∧ t.mem.read 5 = 4 := ⟨rfl, _, rfl, by decide⟩

theorem witness_FrameOfIn :
    (∃ t, exec (.inp (pos 0)) { atTheEdge with inq := [9] } = .next t ∧ t.mem.read 0 = 9) ∧
      ∃ t, exec (.inp (pos 0)) atTheEdge = .next t ∧ t.status = .waitingForInput :=
  ⟨⟨_, rfl, by decide⟩, _, rfl, by decide⟩

theorem witness_FrameOfOut : ∃ t, exec (.out (rel 2)) atTheEdge = .next t ∧ t.outLog = [-3] :=
  ⟨_, rfl, by decide⟩

theorem witness_FrameOfTheJumps :
    (∃ t, exec (.jt (pos 0) (imm 4)) atTheEdge = .next t ∧ t.ip = 4) ∧
      ∃ t, exec (.jf (pos 0) (imm 4)) atTheEdge = .next t ∧ t.ip = 9223372036854775806 :=
  ⟨⟨_, rfl, by decide⟩, _, rfl, by decide⟩

theorem witness_FrameOfArbAndHlt :
    (∃ t, exec (.arb (imm 4)) atTheEdge = .next t ∧ t.rb = 5) ∧
      ∃ t, exec .hlt atTheEdge = .next t ∧ t.status = .halted := ⟨⟨_, rfl, by decide⟩, _, rfl, by decide⟩

theorem witness_RelativeBaseIsReadAndWrittenByFew :
    (∃ t, (running [109, 1]).busy = true ∧ (running [109, 1]).status = .running ∧
      step (running [109, 1]) = .next t ∧ t.rb ≠ (running [109, 1]).rb) ∧
      (∀ o ∈ (Instr.out (pos 0)).operands, o.mode ≠ .relative) ∧ (∀ a, Instr.out (pos 0) ≠ .arb a) ∧
      ∃ t, exec (.out (pos 0)) atTheEdge = .next t :=
  ⟨⟨_, rfl, rfl, rfl, by decide⟩, by decide, by simp, _, rfl⟩

/-- Two cores under the scheduler: core 0 waits, and core 1 runs a program that is about to output, or to wait. -/
def duo (ws : List Word) : State :=
  { running ws with
    before := [{ CoreState.constructed [(0, 3), (2, 99)] [] with status := .waitingForInput }]
    cur := 1, runs := 1, scheduling := true }

theorem witness_StepChangesStatusByTheTable :
    (∃ t, step (duo [99]) = .next t ∧ (duo [99]).coreAt 1 = some (duo [99]).toCoreState ∧
      (t.coreAt 1).map CoreState.status = some .halted) ∧
      (∃ t, step (duo [3, 0]) = .next t ∧ (t.coreAt 1).map CoreState.status = some .waitingForInput) ∧
      (∃ t, step (duo [0]) = .next t ∧ (t.coreAt 1).map CoreState.status = some .faulted) ∧
      ∃ t, step { duo [99] with busy := false, cur := 0 } = .next t ∧
        (t.coreAt 0).map CoreState.status = some .running :=
  ⟨⟨_, rfl, by decide⟩, ⟨_, rfl, by decide⟩, ⟨_, rfl, by decide⟩, _, rfl, by decide⟩

/-- One core that has halted after an output, with no run in progress. -/
def done : State := { running [99] with busy := false, status := .halted, outLog := [5, 6] }

theorem witness_CommandChangesStatusByTheTable :
    let k := done.toCoreState
    done.coreAt 0 = some k ∧
      (({ done with status := .waitingForInput } : State).command 0 .run).2.coreAt 0 =
        some { k with status := .running, busy := true } ∧
      (({ done with outCur := 2 } : State).command 0 .takeOutput).2.status = .faulted ∧
      (done.command 0 (.memoryAt (-1))).2.status = .faulted := by decide

theorem witness_HaltedAndFaultedCoresStayPut :
    (∃ t, step { done with scheduling := true } = .next t) ∧ done.coreAt 0 = some done.toCoreState ∧
      done.toCoreState.status = .halted ∧
      (∃ t, step { duo [0] with status := .faulted } = .next t) ∧
      (({ duo [0] with status := .faulted } : State).coreAt 1).map CoreState.status = some .faulted :=
  ⟨⟨_, rfl⟩, by decide, by decide, ⟨_, rfl⟩, by decide⟩

theorem witness_AFaultingStepHasNoOtherEffect :
    let s := { running [204, -3] with rb := -5 }
    s.busy = true ∧ s.status = .running ∧ s.fault.valid = false ∧ ∃ t, step s = .next t ∧ t.status = .faulted :=
  ⟨rfl, rfl, rfl, _, rfl, by decide⟩

theorem witness_FaultActionKeepsTheFirstFault :
    State.reset.fault.valid = false ∧
      (let c : FaultCause := { reason := .negativeAddress, addr := some (-1), operand := some 0 };
        (State.reset.raise c).fault.valid = true ∧ (State.reset.raise c).status = .faulted ∧
        State.reset.resolveRead 0 (pos (-1)) = .error c ∧ State.reset.resolveWrite 0 (pos (-1)) = .error c) ∧
      (running []).fetch = .error { reason := .invalidOpcode, addr := none, operand := none } ∧
      (runningAt top []).seqNext 1 =
        .error { reason := .addressOverflow, addr := some 9223372036854775808, operand := none } ∧
      (let s := { done with status := .faulted };
        s.coreAt 0 = some s.toCoreState ∧ s.busy = false ∧ s.scheduling = false) := by decide

theorem witness_InstructionPointerNeverWraps :
    (∃ t, exec (.out (imm 1)) atTheEdge = .next t ∧ t.ip = 9223372036854775805) ∧
      (∃ t, exec (.jt (imm 1) (imm (-7))) atTheEdge = .next t ∧ t.ip = -7) ∧
      ∃ t, exec .hlt atTheEdge = .next t ∧ t.ip = atTheEdge.ip :=
  ⟨⟨_, rfl, by decide⟩, ⟨_, rfl, by decide⟩, _, rfl, by decide⟩

theorem witness_OutputLogOnlyGrowsByOut :
    (∃ t, step (duo [104, 7]) = .next t ∧ (duo [104, 7]).coreAt 1 = some (duo [104, 7]).toCoreState ∧
      (t.coreAt 1).map CoreState.outLog = some [7]) ∧
      done.coreAt 0 = some done.toCoreState ∧
      ((done.command 0 .drain).2.coreAt 0).map CoreState.outLog = some [5, 6] :=
  ⟨⟨_, rfl, by decide⟩, by decide⟩

theorem witness_InputQueueIsFirstInFirstOut :
    (∃ t, step { duo [3, 9] with inq := [4, 5] } = .next t ∧
      (({ duo [3, 9] with inq := [4, 5] } : State).coreAt 1).map CoreState.inq = some [4, 5] ∧
      (t.coreAt 1).map CoreState.inq = some [5]) ∧
      ∃ t, step { duo [3, 9] with status := .waitingForInput, outLog := [8] } = .next t ∧
        (t.coreAt 0).map CoreState.inq = some [8] := ⟨⟨_, rfl, by decide⟩, _, rfl, by decide⟩

theorem witness_StepDependsOnTheCoreAlone :
    let s := duo [104, 7]
    let s' := { running [104, 7] with params := { Params.sourceFaithful with inCap := some 1, roundCap := some 2 } }
    s'.toCoreState = s.toCoreState ∧ s'.params.memLimit = s.params.memLimit ∧ s'.params.outCap = s.params.outCap := by
  decide

/-- A JT #1 to `target` that is about to run. -/
abbrev jumpsTo (target : Word) : Prop :=
  let s := running [1105, 1, target]
  s.busy = true ∧ s.status = .running ∧ s.fault.valid = false ∧ s.fetch = .ok (.jt (imm 1) (imm target)) ∧
    s.readable (imm 1) ∧ s.readable (imm target) ∧ s.value (imm 1) ≠ 0

theorem witness_JumpTargetsAreTakenAsTheyAre_negative : jumpsTo (-7) ∧ (-7 : Word).toInt < 0 := by decide
theorem witness_JumpTargetsAreTakenAsTheyAre_unwritten :
    jumpsTo 500 ∧ (running [1105, 1, 500]).mem.read 500 = 0 := by decide
theorem witness_JumpTargetsAreTakenAsTheyAre_itself : jumpsTo 0 ∧ (running [1105, 1, 0]).ip = 0 := by decide
theorem witness_JumpTargetsAreTakenAsTheyAre_jf :
    let s := running [1106, 0, -7]
    s.busy = true ∧ s.status = .running ∧ s.fault.valid = false ∧ s.fetch = .ok (.jf (imm 0) (imm (-7))) ∧
      s.readable (imm 0) ∧ s.readable (imm (-7)) ∧ s.value (imm 0) = 0 := by decide

/-- A core whose memory, queues and counters fit, with no fault, satisfies the invariant. -/
theorem core_inv {k : CoreState} {p : Params} (hm : k.mem.wf = true) (hl : k.mem.all (fun c => decide (c.1 < p.memLimit)) = true)
    (ho : k.outCur ≤ k.outLog.length) (hi : withinCap p.inCap k.inq.length = true)
    (hc : withinCap p.outCap k.outLog.length = true) (hf : k.fault = FaultRecord.none) (hs : k.status ≠ .faulted) :
    k.Inv p :=
  ⟨⟨hm, by simpa using hl⟩, ho, hi, hc, .inl hf, by rw [hf]; exact ⟨fun h => absurd h hs, fun h => nomatch h⟩⟩

/-- A state of the invariant that is not the reset state: two cores, one of them running. -/
theorem duo_inv : (duo [3, 9]).Inv where
  params_wf := by decide
  cores_inv := by
    intro k hk
    simp only [duo, State.cores, List.mem_cons, List.mem_append, List.not_mem_nil, or_false] at hk
    obtain rfl | rfl | hk := hk
    · exact core_inv (by decide) (by decide) (by decide) (by decide) (by decide) (by decide) (by decide)
    · exact core_inv (by decide) (by decide) (by decide) (by decide) (by decide) (by decide) (by decide)
    · cases hk
  cur_lt := by decide
  parked_before := by decide
  parked_after := by decide
  running_core_is_cur := by decide

theorem witness_EveryStepKeepsTheInvariant : (duo [3, 9]).Inv ∧ ∃ t, step (duo [3, 9]) = .next t :=
  ⟨duo_inv, _, rfl⟩

theorem witness_EveryCommandKeepsTheInvariant :
    (duo [3, 9]).Inv ∧ ((duo [3, 9]).command 0 (.feed [1])).1 = .ok := ⟨duo_inv, by decide⟩

theorem witness_ConstructionSatisfiesTheInvariant :
    (Params.sourceFaithful.wf = true ∧ ∃ s, State.network Params.sourceFaithful [99] [1] [[2]] = .ok s) ∧
      State.network { Params.sourceFaithful with inCap := some 1 } [99] [1] [[2, 3]] = .error .inputQueueFull :=
  ⟨⟨by decide, _, rfl⟩, by decide⟩

theorem witness_TheMachineNeverStops : (duo [3, 9]).Inv := duo_inv

theorem witness_CanonicalMemoriesThatReadAlikeAreEqual :
    Memory.wf [(0, 7), (3, -3)] = true ∧ Memory.wf ((Memory.write [(0, 7)] 3 (-3)).write 5 0) = true ∧
      ∀ a, Memory.read [(0, 7), (3, -3)] a = ((Memory.write [(0, 7)] 3 (-3)).write 5 0).read a :=
  ⟨by decide, by decide, fun _ => rfl⟩

theorem witness_MemoryPrimitives :
    let p := { Params.sourceFaithful with memLimit := 100 }
    (-1 : Int) < 0 ∧ addrMax < 9223372036854775808 ∧ ((0 : Int) ≤ addrMax ∧ (p.memLimit : Int) ≤ addrMax) ∧
      ((0 : Int) ≤ 99 ∧ (99 : Int) < p.memLimit) ∧ (0 : Int) ≤ 100 ∧ (p.memLimit : Int) ≤ 100 ∧
      atTheEdge.mem.wf = true ∧ atTheEdge.resolveWrite 0 (rel 0) = .ok 1 := by decide

theorem witness_TheNextFetchSeesTheStore :
    let s := { atTheEdge with ip := 0, inq := [99] }
    s.mem.wf = true ∧ s.readable (pos 0) ∧ s.readable (imm 98) ∧ s.writableAt (pos 4) 4 ∧ s.continues 4 ∧
      ((4 : Nat) : Int) = s.ip.toInt + 4 ∧
      (Instr.add (pos 0) (imm 98) (pos 4)).rrw = some (addWords, pos 0, imm 98, pos 4) ∧
      s.inq = 99 :: [] ∧ s.writableAt (rel 1) 2 ∧ s.continues 2 ∧ ((2 : Nat) : Int) = s.ip.toInt + 2 :=
  ⟨by decide, by decide, by decide, by decide, by decide, by decide, rfl, by decide⟩

theorem witness_RunLoop :
    (done.coreAt 0 = some done.toCoreState ∧ done.busy = false ∧ done.scheduling = false ∧ done.status = .halted) ∧
      (let s := { duo [99] with busy := false, scheduling := false };
        s.busy = false ∧ s.scheduling = false ∧
          (s.coreAt 0).map (fun k => (k.status, k.busy)) = some (.waitingForInput, false) ∧
          (s.coreAt 1).map (fun k => (k.status, k.busy)) = some (.running, false) ∧ 1 = s.before.length) ∧
      ((running [99]).busy = true ∧ (running [99]).status = .running) ∧
      (let s := { done with busy := true };
        s.busy = true ∧ s.status ≠ .running ∧ s.scheduling = false) := by decide

/-- One core that waits at `IN [0]`. -/
def waiting : State := { running [3, 0, 99] with busy := false, status := .waitingForInput }

theorem witness_AWaitingCoreBlocksAgain :
    waiting.busy = false ∧ waiting.scheduling = false ∧ waiting.status = .waitingForInput ∧ waiting.inq = [] ∧
      waiting.fetch = .ok (.inp (pos 0)) ∧ waiting.writableAt (pos 0) 0 ∧ waiting.continues 2 := by decide

theorem witness_AFedCoreResumes :
    let s := { waiting with params := { Params.sourceFaithful with inCap := some 2 } }
    s.busy = false ∧ s.scheduling = false ∧ s.status = .waitingForInput ∧ s.inq = [] ∧
      s.fetch = .ok (.inp (pos 0)) ∧ s.writableAt (pos 0) 0 ∧ s.continues 2 ∧
      withinCap s.params.inCap ((11 : Word) :: [12]).length = true := by decide

theorem witness_FeedAppendsAllOrNothing :
    let s := { waiting with inq := [1], params := { Params.sourceFaithful with inCap := some 2 } }
    s.coreAt 0 = some s.toCoreState ∧ s.toCoreState.busy = false ∧
      withinCap s.params.inCap (s.inq.length + ([2] : List Word).length) = true ∧
      withinCap s.params.inCap (s.inq.length + ([2, 3] : List Word).length) = false := by decide

theorem witness_OutputAndInspectionCommands :
    done.coreAt 0 = some done.toCoreState ∧ done.toCoreState.busy = false ∧ done.outLog[done.outCur]? = some 5 ∧
      (let s := { (after (step (running [0]))) with busy := false };
        s.coreAt 0 = some s.toCoreState ∧ s.toCoreState.busy = false ∧ s.status = .faulted ∧
          s.outCur = s.outLog.length) ∧
      0 ≤ (0 : Word).toInt ∧ (-1 : Word).toInt < 0 := by decide

theorem witness_DrainIsRepeatedTakeOutput :
    done.coreAt 0 = some done.toCoreState ∧ done.toCoreState.busy = false ∧ done.outCur ≤ done.outLog.length ∧
      done.toCoreState.buffered[1]? = some 6 := by decide

theorem witness_BusyCoresRefuseCommands :
    (running [99]).coreAt 0 = some (running [99]).toCoreState ∧ (running [99]).toCoreState.busy = true ∧
      done.coreAt 0 = some done.toCoreState ∧ done.toCoreState.busy = false ∧ HostCmd.outputs ≠ .run := by decide

theorem witness_TransferMovesTheBufferedOutputs :
    (let s := { duo [99] with outLog := [4, 5], outCur := 1 };
      s.coreAt 1 = some s.toCoreState ∧
        ∃ t, (s.setCore 1 s.toCoreState.drained).coreAt ((1 + 1) % s.netN) = some t ∧
          withinCap s.params.inCap (t.inq.length + s.toCoreState.buffered.length) = true) ∧
      let s := { done with params := { Params.sourceFaithful with inCap := some 1 } }
      s.coreAt 0 = some s.toCoreState ∧
        ∃ t, (s.setCore 0 s.toCoreState.drained).coreAt ((0 + 1) % s.netN) = some t ∧
          withinCap s.params.inCap (t.inq.length + s.toCoreState.buffered.length) = false :=
  ⟨⟨rfl, _, rfl, by decide⟩, rfl, _, rfl, by decide⟩

theorem witness_SchedulerRunsTheCurrentCore :
    let s := { duo [99] with busy := false }
    s.busy = false ∧ s.scheduling = true ∧ s.nstatus = .scheduling ∧
      ({ s with nstatus := .done 1 } : State).nstatus ≠ .scheduling ∧
      (let u := { s with runs := 2, params := { Params.sourceFaithful with roundCap := some 1 } };
        u.params.roundCap = some 1 ∧ u.runs = 1 * u.netN) ∧
      (s.params.roundCap = none ∧ s.coreAt s.cur = some s.toCoreState ∧ s.toCoreState.status = .running) ∧
      ({ s with status := .halted } : State).coreAt 1 = some { s.toCoreState with status := .halted } ∧
      ({ s with status := .faulted } : State).coreAt 1 = some { s.toCoreState with status := .faulted } := by decide

theorem witness_SchedulerMovesOnAfterARun :
    ∀ st ∈ [Status.faulted, Status.halted, Status.waitingForInput], let s := { duo [99] with status := st };
      s.busy = true ∧ s.status ≠ .running ∧ s.scheduling = true ∧ s.nstatus = .scheduling ∧
        s.before.length = s.cur := by decide

/-- The cases of the turn's end: a core that has not halted, a transfer that overflows, every core halted. -/
theorem witness_turnEndsIn :
    (let s := ({ duo [99] with status := .halted } : State).setBusy false;
      (s.transfer s.cur).nstatus = .scheduling ∧ ∃ k ∈ (s.transfer s.cur).cores, k.status ≠ .halted) ∧
      (let p := { Params.sourceFaithful with inCap := some 1 };
        let s := ({ duo [99] with status := .halted, outLog := [1, 2], params := p } : State).setBusy false;
        p.wf = true ∧ (s.transfer s.cur).nstatus ≠ .scheduling) ∧
      (let s := ({ done with busy := true, scheduling := true } : State).setBusy false;
        (s.transfer s.cur).nstatus = .scheduling ∧ ∀ k ∈ (s.transfer s.cur).cores, k.status = .halted) := by decide

theorem witness_AnswerIsTheLastCoresLastOutput :
    (duo [99]).cores = (duo [99]).before ++ [(duo [99]).toCoreState] ∧ (duo [99]).outLog = [] ∧
      done.cores = [] ++ [done.toCoreState] ∧ done.toCoreState.outLog = [5] ++ [6] := by decide

theorem witness_ConstructionCopiesTheProgram :
    let p := { Params.sourceFaithful with memLimit := 2, inCap := some 1 }
    p.memLimit < ([1, 2, 3] : List Word).length ∧ ([1, 2] : List Word).length ≤ p.memLimit ∧
      withinCap p.inCap ([1, 2] : List Word).length = false ∧ withinCap p.inCap ([1] : List Word).length = true := by
  decide

end Sys2Proof.Tests
end

section
/-! The decoder word by word and the resolver mode by mode (spec/30_encoding.md, R90 to R111): one lemma for each answer,
and from them the statements of the encoding family. -/

namespace Sys2Proof

/-! ## The decoder of one word -/

/-- R94: the digits the decoder reads are those of `w mod 100000`. -/
theorem digit_congr {w w' : Word} (h : w.toNat % 100000 = w'.toNat % 100000) {k : Nat} (hk : k < 5) :
    digit k w = digit k w' := by
  unfold digit
  interval_cases k <;> omega

/-- R94: words that differ only in field E decode alike. -/
theorem decodeHead_congr {w w' : Word} (hw : 0 ≤ w.toInt) (hw' : 0 ≤ w'.toInt)
    (h : w.toNat % 100000 = w'.toNat % 100000) : decodeHead w = decodeHead w' := by
  have hop : w.toNat % 100 = w'.toNat % 100 := by omega
  unfold decodeHead
  rw [if_neg (not_lt.2 hw), if_neg (not_lt.2 hw'), hop, digit_congr h (k := 2) (by decide),
    digit_congr h (k := 3) (by decide), digit_congr h (k := 4) (by decide)]

/-- R91: a negative word has no opcode. -/
theorem decodeHead_of_neg {w : Word} (hw : w.toInt < 0) : decodeHead w = .error .invalidOpcode :=
  if_pos hw

theorem decodeHead_of_ofCode_none {w : Word} (hw : 0 ≤ w.toInt) (hop : Opcode.ofCode (w.toNat % 100) = none) :
    decodeHead w = .error .invalidOpcode := by
  simp [decodeHead, not_lt.2 hw, hop]

/-- R93: one mode digit above 2 is enough, whether or not the opcode uses it. -/
theorem decodeHead_of_ofDigit_none {w : Word} {op : Opcode} (hw : 0 ≤ w.toInt)
    (hop : Opcode.ofCode (w.toNat % 100) = some op)
    (hbad : Mode.ofDigit (digit 2 w) = none ∨ Mode.ofDigit (digit 3 w) = none ∨ Mode.ofDigit (digit 4 w) = none) :
    decodeHead w = .error .invalidMode := by
  simp only [decodeHead, not_lt.2 hw, hop, if_false]
  split
  · next ha hb hc => simp [ha, hb, hc] at hbad
  · rfl

/-- R95: a legal opcode and three legal mode digits make a head. -/
theorem decodeHead_of_fields {w : Word} {op : Opcode} {a b c : Mode} (hw : 0 ≤ w.toInt)
    (hop : Opcode.ofCode (w.toNat % 100) = some op) (ha : Mode.ofDigit (digit 2 w) = some a)
    (hb : Mode.ofDigit (digit 3 w) = some b) (hc : Mode.ofDigit (digit 4 w) = some c) :
    decodeHead w = .ok { op := op, a := a, b := b, c := c } := by
  simp [decodeHead, not_lt.2 hw, hop, ha, hb, hc]

/-- R100: each of the ten opcode values has its opcode. -/
theorem Opcode.exists_of_mem {n : Nat} (h : n ∈ [1, 2, 3, 4, 5, 6, 7, 8, 9, 99]) :
    ∃ op, Opcode.ofCode n = some op :=
  Option.ne_none_iff_exists'.1 fun hn => Opcode.ofCode_eq_none.1 hn h

/-- R92: each of the digits 0, 1 and 2 has its mode. -/
theorem Mode.exists_of_le {n : Nat} (h : n ≤ 2) : ∃ m, Mode.ofDigit n = some m :=
  Option.ne_none_iff_exists'.1 fun hn => absurd (Mode.ofDigit_eq_none.1 hn) (by omega)

/-- R90: the low two digits of a word that decodes are its opcode's value. -/
theorem decodeHead_code {w : Word} {h : Head} (hd : decodeHead w = .ok h) : w.toNat % 100 = h.op.code := by
  obtain ⟨-, hv⟩ := decodeHead_ok.1 hd
  have := h.op.code_lt
  unfold Head.value at hv
  omega

namespace Machine

theorem decodeWord_of_ok {w : Word} {h : Head} (hd : decodeHead w = .ok h) : decodeWord w = .ok h := by
  simp [decodeWord, hd]

theorem decodeWord_of_error {w : Word} {e : DecodeError} (hd : decodeHead w = .error e) :
    decodeWord w = .error (decodeCause e) := by
  simp [decodeWord, hd]

end Machine

/-! ## The decoder of a sequence -/

/-- R97, R103: what decodes is a head and enough words after it; the rest is what follows the operands. -/
theorem decode_cons_ok {w : Word} {ws rest : List Word} {i : Instr} (hd : decode (w :: ws) = .ok (i, rest)) :
    ∃ h, decodeHead w = .ok h ∧ h.op.length - 1 ≤ ws.length ∧
      i = assemble h (ws.getD 0 0) (ws.getD 1 0) (ws.getD 2 0) ∧ rest = ws.drop (h.op.length - 1) := by
  rw [decode] at hd
  split at hd
  · cases hd
  · next h hh =>
    split at hd
    · cases hd
    · next hlen =>
      cases hd
      exact ⟨h, hh, not_lt.1 hlen, rfl, rfl⟩

/-- R96, R100: an opcode's length, by its value. -/
theorem Opcode.length_of_code (op : Opcode) :
    op.code ∈ [1, 2, 7, 8] ∧ op.length = 4 ∨ op.code ∈ [5, 6] ∧ op.length = 3 ∨
      op.code ∈ [3, 4, 9] ∧ op.length = 2 ∨ op.code = 99 ∧ op.length = 1 := by
  cases op <;> decide

/-! ## The resolver at an address -/

namespace Machine

theorem nonneg_of_addrMax_lt {a : Int} (h : addrMax < a) : 0 ≤ a :=
  le_trans (by decide) h.le

section
variable {s : State} {o : Operand} {a : Int} (k : Fin 3) (ha : s.effAddr o = some a)
include ha

theorem State.resolveRead_of_neg (h : a < 0) :
    s.resolveRead k o = .error { reason := .negativeAddress, addr := some a, operand := some k } := by
  simp [State.resolveRead, ha, h]

theorem State.resolveWrite_of_neg (h : a < 0) :
    s.resolveWrite k o = .error { reason := .negativeAddress, addr := some a, operand := some k } := by
  simp [State.resolveWrite, ha, h]

theorem State.resolveRead_of_overflow (h : addrMax < a) :
    s.resolveRead k o = .error { reason := .addressOverflow, addr := some a, operand := some k } := by
  have h0 : 0 ≤ a := nonneg_of_addrMax_lt h
  simp only [State.resolveRead, ha, not_lt.2 h0, h, if_true, if_false]

theorem State.resolveWrite_of_overflow (h : addrMax < a) :
    s.resolveWrite k o = .error { reason := .addressOverflow, addr := some a, operand := some k } := by
  have h0 : 0 ≤ a := nonneg_of_addrMax_lt h
  simp only [State.resolveWrite, ha, not_lt.2 h0, h, if_true, if_false]

theorem State.resolveRead_of_inRange (h0 : 0 ≤ a) (h1 : a ≤ addrMax) :
    s.resolveRead k o = .ok (s.mem.read a.toNat) := by
  have hv : s.value o = s.mem.read a.toNat := by simp only [State.value, ha]
  have hr : s.readable o := by simpa [State.readable, ha] using And.intro h0 h1
  exact State.resolveRead_ok.2 ⟨hr, hv.symm⟩

theorem State.resolveWrite_of_capacity (h0 : 0 ≤ a) (h1 : a ≤ addrMax) (hcap : (s.params.memLimit : Int) ≤ a) :
    s.resolveWrite k o = .error { reason := .capacityExceeded, addr := some a, operand := some k } := by
  simp only [State.resolveWrite, ha, not_lt.2 h0, not_lt.2 h1, hcap, if_true, if_false]

theorem State.resolveWrite_of_inRange (h0 : 0 ≤ a) (h1 : a ≤ addrMax) (hcap : a < s.params.memLimit) :
    s.resolveWrite k o = .ok a.toNat := by
  have hn : (a.toNat : Int) = a := Int.toNat_of_nonneg h0
  exact State.resolveWrite_ok.2 ⟨by rw [ha, hn], by omega, by omega⟩

end

end Machine

/-! ## The statements of the family -/

/-- Settles O4: the decoder reads only `w mod 100000` of a non-negative word. -/
theorem highDigitsAreIgnored : Obligations.HighDigitsAreIgnored :=
  ⟨fun _ _ => decodeHead_congr, by decide, Instr.headValue_le⟩

open Machine in
/-- Settles O5, one lemma of `decodeHead` for each clause. -/
theorem decoderOutcomes : Obligations.DecoderOutcomes := by
  intro w
  refine ⟨fun hneg => ?_, fun hw hop => ?_, fun hw hop hbad => ?_, fun hw hop hmodes => ?_⟩
  · exact decodeWord_of_error (decodeHead_of_neg hneg)
  · exact decodeWord_of_error (decodeHead_of_ofCode_none hw (Opcode.ofCode_eq_none.2 hop))
  · obtain ⟨op, hop⟩ := Opcode.exists_of_mem hop
    refine decodeWord_of_error (decodeHead_of_ofDigit_none hw hop ?_)
    simpa [Mode.ofDigit_eq_none] using hbad
  · obtain ⟨op, hop⟩ := Opcode.exists_of_mem hop
    obtain ⟨a, ha⟩ := Mode.exists_of_le (hmodes 2 (by decide))
    obtain ⟨b, hb⟩ := Mode.exists_of_le (hmodes 3 (by decide))
    obtain ⟨c, hc⟩ := Mode.exists_of_le (hmodes 4 (by decide))
    exact ⟨_, decodeWord_of_ok (decodeHead_of_fields hw hop ha hb hc), (Opcode.ofCode_eq_some.1 hop).symm,
      (Mode.ofDigit_eq_some.1 ha).symm, (Mode.ofDigit_eq_some.1 hb).symm, (Mode.ofDigit_eq_some.1 hc).symm⟩

/-- Settles O6: the words taken are the first word and the `length - 1` raw operand words after it. -/
theorem decodeTakesTheLengthOfOp : Obligations.DecodeTakesTheLengthOfOp := by
  intro w ws rest i hd
  obtain ⟨h, hh, hlen, rfl, rfl⟩ := decode_cons_ok hd
  have htaken : (w :: ws.take (h.op.length - 1)).length = h.op.length := by
    have := h.op.length_pos
    simp only [List.length_cons, List.length_take]
    omega
  refine ⟨w :: ws.take (h.op.length - 1), by simp, ?_, ?_⟩
  · rw [htaken, assemble_length]
  · rw [htaken, decodeHead_code hh]
    exact h.op.length_of_code

open Machine in
/-- Settles O10: Position and Relative differ only in their effective address, and the resolver's answer follows from it. -/
theorem resolverByMode : Obligations.ResolverByMode := by
  intro s k r
  refine ⟨rfl, rfl, fun m a hm => ?_⟩
  have ha : s.effAddr ⟨m, r⟩ = some a := by
    obtain ⟨rfl, rfl⟩ | ⟨rfl, rfl⟩ := hm
    · exact s.effAddr_position r
    · exact s.effAddr_relative r
  exact ⟨fun h => ⟨State.resolveRead_of_neg k ha h, State.resolveWrite_of_neg k ha h⟩,
    fun h => ⟨State.resolveRead_of_overflow k ha h, State.resolveWrite_of_overflow k ha h⟩,
    fun h0 h1 => ⟨State.resolveRead_of_inRange k ha h0 h1, State.resolveWrite_of_capacity k ha h0 h1,
      State.resolveWrite_of_inRange k ha h0 h1⟩⟩

end Sys2Proof
end

section
/-! The step as a whole (spec/40_execution_cycle.md): the two range checks of R134 as lemmas about `fetch` and about each
effect, and R138, a step read as a function of the running core, MEM_LIMIT and OUT_CAP. -/

namespace Sys2Proof.Machine

/-! ## The range checks -/

/-- R62, R130: the fetch of a word at a non-negative IP. -/
theorem State.memRead_ip {s : State} (h0 : 0 ≤ s.ip.toInt) : s.memRead s.ip.toInt = .ok (s.mem.read s.ip.toNat) := by
  have hip : s.ip.toInt.toNat = s.ip.toNat := by
    have := toNat_of_nonneg h0
    omega
  exact State.memRead_ok.2 ⟨⟨h0, toInt_le_max _⟩, by rw [hip]⟩

/-- R134: the first check, made before any operand word is read. -/
theorem State.fetch_of_overflow {s : State} {h : Head} (h0 : 0 ≤ s.ip.toInt)
    (hd : decodeHead (s.mem.read s.ip.toNat) = .ok h) (hlast : addrMax < s.ip.toInt + h.op.length - 1) :
    s.fetch = .error { reason := .addressOverflow, addr := some (s.ip.toInt + h.op.length - 1), operand := none } :=
  bind_error.2 (.inr ⟨_, State.memRead_ip h0, bind_error.2 (.inr ⟨h, decodeWord_of_ok hd, if_pos hlast⟩)⟩)

/-- R134: the cause that `seqNext(len)` raises where IP cannot move on by `len`. -/
def State.nextOverflow (s : State) (len : Nat) : FaultCause :=
  { reason := .addressOverflow, addr := some (s.ip.toInt + len), operand := none }

theorem State.seqNext_of_not_continues {s : State} {len : Nat} (h : ¬ s.continues len) :
    s.seqNext len = .error (s.nextOverflow len) :=
  if_pos (not_le.1 h)

theorem State.resolveRead_of_readable {s : State} {o : Operand} (k : Fin 3) (h : s.readable o) :
    s.resolveRead k o = .ok (s.value o) :=
  State.resolveRead_ok.2 ⟨h, rfl⟩

section
variable {s : State} {a b dst : Operand} {d : Nat}

theorem effectRRW_of_not_continues (f : Word → Word → Word) (ha : s.readable a) (hb : s.readable b)
    (hd : s.writableAt dst d) (hn : ¬ s.continues 4) : effectRRW f a b dst s = .error (s.nextOverflow 4) := by
  simp only [effectRRW, State.resolveRead_of_readable _ ha, State.resolveRead_of_readable _ hb,
    State.resolveWrite_ok.2 hd, State.seqNext_of_not_continues hn, bind, Except.bind]

/-- R134, C10: the check comes before INQ is looked at. -/
theorem effectIn_of_not_continues (hd : s.writableAt dst d) (hn : ¬ s.continues 2) :
    effectIn dst s = .error (s.nextOverflow 2) := by
  simp only [effectIn, State.resolveWrite_ok.2 hd, State.seqNext_of_not_continues hn, bind, Except.bind]

theorem effectOut_of_not_continues (ha : s.readable a) (hn : ¬ s.continues 2) :
    effectOut a s = .error (s.nextOverflow 2) := by
  simp only [effectOut, State.resolveRead_of_readable _ ha, State.seqNext_of_not_continues hn, bind, Except.bind]

theorem effectArb_of_not_continues (ha : s.readable a) (hn : ¬ s.continues 2) :
    effectArb a s = .error (s.nextOverflow 2) := by
  simp only [effectArb, State.resolveRead_of_readable _ ha, State.seqNext_of_not_continues hn, bind, Except.bind]

/-- R134: a jump makes the check on the path not taken. -/
theorem effectJump_of_not_continues {taken : Word → Bool} (ha : s.readable a) (hb : s.readable b)
    (ht : taken (s.value a) = false) (hn : ¬ s.continues 3) :
    effectJump taken a b s = .error (s.nextOverflow 3) := by
  simp only [effectJump, State.resolveRead_of_readable _ ha, State.resolveRead_of_readable _ hb, ht,
    State.seqNext_of_not_continues hn, bind, Except.bind, Bool.false_eq_true, if_false]

/-- R134, R199: a taken jump makes no check. -/
theorem effectJump_of_taken {taken : Word → Bool} (ha : s.readable a) (hb : s.readable b)
    (ht : taken (s.value a) = true) : effectJump taken a b s = .ok (s.setIp (s.value b)) :=
  effectJump_ok.2 ⟨ha, hb, .inl ⟨ht, rfl⟩⟩

end

/-! ## The running core after an update -/

section
variable (s : State)

theorem State.setIp_toCoreState (v : Word) : (s.setIp v).toCoreState = { s.toCoreState with ip := v } := rfl
theorem State.setRb_toCoreState (v : Word) : (s.setRb v).toCoreState = { s.toCoreState with rb := v } := rfl
theorem State.setStatus_toCoreState (v : Status) :
    (s.setStatus v).toCoreState = { s.toCoreState with status := v } := rfl
theorem State.setInq_toCoreState (q : List Word) : (s.setInq q).toCoreState = { s.toCoreState with inq := q } := rfl
theorem State.appendOut_toCoreState (v : Word) :
    (s.appendOut v).toCoreState = { s.toCoreState with outLog := s.outLog ++ [v] } := rfl
theorem State.storeWord_toCoreState (a : Nat) (v : Word) :
    (s.storeWord a v).toCoreState = { s.toCoreState with mem := s.mem.write a v } := rfl

end

/-! ## What a step reads -/

/-- R138: two states alike in all that a step may read: the core in front of the engine, MEM_LIMIT and OUT_CAP. -/
structure State.Alike (s s' : State) : Prop where
  core : s'.toCoreState = s.toCoreState
  memLimit : s'.params.memLimit = s.params.memLimit
  outCap : s'.params.outCap = s.params.outCap

namespace State.Alike

variable {s s' : State} (h : s.Alike s')
include h

theorem resolveRead_eq (k : Fin 3) (o : Operand) : s'.resolveRead k o = s.resolveRead k o := by
  simp only [State.resolveRead, State.effAddr, h.core]

theorem resolveWrite_eq (k : Fin 3) (o : Operand) : s'.resolveWrite k o = s.resolveWrite k o := by
  simp only [State.resolveWrite, State.effAddr, h.core, h.memLimit]

theorem seqNext_eq (len : Nat) : s'.seqNext len = s.seqNext len := by
  simp only [State.seqNext, h.core]

theorem outFull_eq : s'.outFull = s.outFull := by
  simp only [State.outFull, h.core, h.outCap]

theorem fetch_eq : s'.fetch = s.fetch := by
  simp only [State.fetch, State.memRead, State.rawOperand, h.core]

/-! An effect raises the same cause in both states, or leaves the same core: one equation of the cores it answers. -/

theorem effectRRW_core (f : Word → Word → Word) (a b dst : Operand) :
    State.toCoreState <$> effectRRW f a b dst s' = State.toCoreState <$> effectRRW f a b dst s := by
  simp only [effectRRW, h.resolveRead_eq, h.resolveWrite_eq, h.seqNext_eq, map_bind, map_pure,
    State.setIp_toCoreState, State.storeWord_toCoreState, h.core]

theorem effectIn_core (dst : Operand) :
    State.toCoreState <$> effectIn dst s' = State.toCoreState <$> effectIn dst s := by
  simp only [effectIn, h.resolveWrite_eq, h.seqNext_eq, map_bind, h.core]
  cases s.inq with
  | nil => simp only [map_pure, State.setStatus_toCoreState, h.core]
  | cons x xs =>
    simp only [map_pure, State.setIp_toCoreState, State.storeWord_toCoreState, State.setInq_toCoreState, h.core]

theorem effectOut_core (a : Operand) :
    State.toCoreState <$> effectOut a s' = State.toCoreState <$> effectOut a s := by
  simp only [effectOut, h.resolveRead_eq, h.seqNext_eq, h.outFull_eq, map_bind]
  cases s.outFull with
  | true => rfl
  | false =>
    simp only [Bool.false_eq_true, if_false, map_pure, State.setIp_toCoreState, State.appendOut_toCoreState, h.core]

theorem effectJump_core (taken : Word → Bool) (a b : Operand) :
    State.toCoreState <$> effectJump taken a b s' = State.toCoreState <$> effectJump taken a b s := by
  simp only [effectJump, h.resolveRead_eq, h.seqNext_eq, map_bind, apply_ite (State.toCoreState <$> ·), map_pure,
    State.setIp_toCoreState, h.core]

theorem effectArb_core (a : Operand) :
    State.toCoreState <$> effectArb a s' = State.toCoreState <$> effectArb a s := by
  simp only [effectArb, h.resolveRead_eq, h.seqNext_eq, map_bind, map_pure,
    State.setIp_toCoreState, State.setRb_toCoreState, h.core]

theorem effect_core (i : Instr) : State.toCoreState <$> effect i s' = State.toCoreState <$> effect i s := by
  cases i with
  | add a b dst => exact h.effectRRW_core addWords a b dst
  | mul a b dst => exact h.effectRRW_core mulWords a b dst
  | inp dst => exact h.effectIn_core dst
  | out a => exact h.effectOut_core a
  | jt a b => exact h.effectJump_core nonZero a b
  | jf a b => exact h.effectJump_core isZero a b
  | lt a b dst => exact h.effectRRW_core ltWord a b dst
  | eq a b dst => exact h.effectRRW_core eqWord a b dst
  | arb a => exact h.effectArb_core a
  | hlt =>
    have hk : (s'.setStatus .halted).toCoreState = (s.setStatus .halted).toCoreState := by
      simp only [State.setStatus_toCoreState, h.core]
    exact congrArg Except.ok hk

/-- Answers with the same core end in the same core: the effect's, or the fault action's on a core that was the same. -/
theorem conclude_core {r r' : Except FaultCause State}
    (hr : State.toCoreState <$> r' = State.toCoreState <$> r) :
    ∃ t t', s.conclude r = .next t ∧ s'.conclude r' = .next t' ∧ t'.toCoreState = t.toCoreState := by
  cases r with
  | ok t =>
    cases r' with
    | ok t' => exact ⟨t, t', rfl, rfl, Except.ok.inj hr⟩
    | error c' => cases hr
  | error c =>
    cases r' with
    | ok t' => cases hr
    | error c' =>
      cases Except.error.inj hr
      refine ⟨s.raise c, s'.raise c, rfl, rfl, ?_⟩
      rw [State.raise_toCoreState, State.raise_toCoreState, h.core]

end State.Alike

/-- R130, R137: a step is one sequence of checks, the fetch's and then the instruction's, with one end. -/
theorem State.engineStep_eq_conclude (s : State) :
    s.engineStep = s.conclude (s.fetch >>= fun i => effect i s) := by
  unfold State.engineStep
  cases s.fetch with
  | ok i => exact exec_eq i s
  | error c => rfl

end Sys2Proof.Machine

namespace Sys2Proof

open Machine

/-! ## The statements of the family -/

/-- Settles O9: each step or instruction meets the check that fails, or, for a taken jump, no check at all. -/
theorem ipRangeChecks : Obligations.IpRangeChecks := by
  refine ⟨fun s h hb hr h0 hd hlast => ?_, fun s i f a b dst d hi ha hb hd hn => exec_of_fault ?_,
    fun s dst d hd hn => exec_of_fault (effectIn_of_not_continues hd hn),
    fun s a ha hn => ⟨exec_of_fault (effectOut_of_not_continues ha hn),
      exec_of_fault (effectArb_of_not_continues ha hn)⟩,
    fun s a b ha hb hn => ⟨fun hz => exec_of_fault ?_, fun hz => exec_of_effect ?_,
      fun hz => exec_of_fault ?_, fun hz => exec_of_effect ?_⟩⟩
  · rw [step_running hb hr, State.engineStep, State.fetch_of_overflow h0 hd hlast]
  · rw [effect_rrw hi]
    exact effectRRW_of_not_continues f ha hb hd hn
  · exact effectJump_of_not_continues ha hb (decide_eq_false (not_not_intro hz)) hn
  · exact effectJump_of_taken ha hb (decide_eq_true hz)
  · exact effectJump_of_not_continues ha hb (decide_eq_false hz) hn
  · exact effectJump_of_taken ha hb (decide_eq_true hz)

/-- Settles O39: alike states fetch the same instruction, and its effect leaves the same core or raises the same cause. -/
theorem stepDependsOnTheCoreAlone : Obligations.StepDependsOnTheCoreAlone := by
  intro s s' hcore hlimit hcap
  have h : s.Alike s' := ⟨hcore, hlimit, hcap⟩
  rw [s.engineStep_eq_conclude, s'.engineStep_eq_conclude]
  refine h.conclude_core ?_
  simp only [h.fetch_eq, map_bind, h.effect_core]

end Sys2Proof
end

section
/-! The fault action and the host's commands (spec/60_exceptions.md): what a failed check records (R302, R303), what each
command answers on the core it goes to (R331 to R337), and the network's answer (R353). -/

namespace Sys2Proof.Machine

/-! ## What a failed check says of the operand -/

theorem State.resolveRead_error_operand {s : State} {k : Fin 3} {o : Operand} {c : FaultCause}
    (h : s.resolveRead k o = .error c) : c.operand = some k := by
  obtain ⟨a, -, ⟨-, rfl⟩ | ⟨-, rfl⟩⟩ := State.resolveRead_error h <;> rfl

theorem State.resolveWrite_error_operand {s : State} {k : Fin 3} {o : Operand} {c : FaultCause}
    (h : s.resolveWrite k o = .error c) : c.operand = some k := by
  obtain ⟨-, rfl⟩ | ⟨a, -, ⟨-, rfl⟩ | ⟨-, rfl⟩ | ⟨-, rfl⟩⟩ := State.resolveWrite_error h <;> rfl

theorem State.seqNext_error_operand {s : State} {len : Nat} {c : FaultCause} (h : s.seqNext len = .error c) :
    c.operand = none := by
  obtain ⟨-, rfl⟩ := State.seqNext_error h
  rfl

theorem State.memRead_error_operand {s : State} {a : Int} {c : FaultCause} (h : s.memRead a = .error c) :
    c.operand = none := by
  unfold State.memRead at h
  split at h
  · cases h; rfl
  · split at h
    · cases h; rfl
    · cases h

theorem decodeWord_error_operand {w : Word} {c : FaultCause} (h : decodeWord w = .error c) : c.operand = none := by
  unfold decodeWord at h
  split at h
  · cases h
  · next e _ => cases h; cases e <;> rfl

/-- R302: a fault of the fetch, the decoder or the range check names no operand. -/
theorem State.fetch_error_operand {s : State} {c : FaultCause} (h : s.fetch = .error c) : c.operand = none := by
  simp only [State.fetch, bind_error] at h
  obtain hread | ⟨w, -, hdec | ⟨hd, -, hrange⟩⟩ := h
  · exact State.memRead_error_operand hread
  · exact decodeWord_error_operand hdec
  · split at hrange
    · cases hrange; rfl
    · exact (pure_error.1 hrange).elim

/-! ## The fault action -/

theorem State.raise_fault_of_invalid {s : State} (h : s.fault.valid = false) (c : FaultCause) :
    (s.raise c).fault =
      { valid := true, reason := some c.reason, ip := some s.ip, addr := c.addr, operand := c.operand } := by
  rw [State.raise_fault, if_neg (by simp [h])]

theorem State.raise_fault_of_valid {s : State} (h : s.fault.valid = true) (c : FaultCause) :
    (s.raise c).fault = s.fault :=
  if_pos h

/-- R45, R46: the fault action is confined to the core in front of the engine, and there to STATUS and FAULT. -/
theorem State.raise_sameBlock (s : State) (c : FaultCause) : s.sameBlock (s.raise c) :=
  ⟨rfl, rfl, rfl, rfl, rfl, rfl, rfl, rfl, rfl⟩

/-- R136: an instruction whose checks all pass does not leave a running core Faulted. -/
theorem effect_status_ne_faulted {i : Instr} {s t : State} (h : effect i s = .ok t) (hr : s.status = .running) :
    t.status ≠ .faulted := by
  obtain ⟨f, a, b, dst, d, -, -, -, rfl⟩ | ⟨dst, -, -, rfl⟩ | ⟨dst, d, x, xs, -, -, -, -, rfl⟩ |
    ⟨a, -, -, -, rfl⟩ | ⟨a, b, -, -, rfl | ⟨-, rfl⟩⟩ | ⟨a, v, -, -, rfl⟩ | ⟨-, rfl⟩ := effect_cases h
  all_goals simp [hr]

/-- R303, R137: a running core's step that ends in Faulted is the fault action. -/
theorem State.engineStep_faulted {s t : State} (h : s.engineStep = .next t) (hr : s.status = .running)
    (hf : t.status = .faulted) : ∃ c, t = s.raise c := by
  obtain ⟨i, -, he⟩ | ⟨c, -, rfl⟩ := State.engineStep_next h
  · exact absurd hf (effect_status_ne_faulted he hr)
  · exact ⟨c, rfl⟩

/-! ## The commands on one core -/

section
variable {k : CoreState}

theorem CoreState.takeOutput_of_some {x : Word} (h : k.outLog[k.outCur]? = some x) :
    k.takeOutput = (.word x, { k with outCur := k.outCur + 1 }) := by
  simp only [CoreState.takeOutput, h]

theorem CoreState.takeOutput_of_none (h : k.outLog[k.outCur]? = none) :
    k.takeOutput = k.fail { reason := .noOutputAvailable, addr := none, operand := none } := by
  simp only [CoreState.takeOutput, h]

theorem CoreState.memoryAt_of_nonneg {a : Word} (h : 0 ≤ a.toInt) :
    k.memoryAt a = (.word (k.mem.read a.toNat), k) :=
  if_neg (not_lt.2 h)

theorem CoreState.memoryAt_of_neg {a : Word} (h : a.toInt < 0) :
    k.memoryAt a = k.fail { reason := .negativeAddress, addr := some a.toInt, operand := none } :=
  if_pos h

theorem CoreState.getElem?_buffered (n : Nat) : k.buffered[n]? = k.outLog[k.outCur + n]? :=
  List.getElem?_drop

/-- R334, R337: as many `takeOutput` as there are words to take move OUTCUR past them and do nothing else. -/
theorem CoreState.takeOutput_iterate {n : Nat} (hn : n ≤ k.buffered.length) :
    (fun k : CoreState => k.takeOutput.2)^[n] k = { k with outCur := k.outCur + n } := by
  induction n with
  | zero => rfl
  | succ n ih =>
    have hx : k.outLog[k.outCur + n]? = some k.buffered[n] :=
      (CoreState.getElem?_buffered n).symm.trans (List.getElem?_eq_getElem hn)
    rw [Function.iterate_succ_apply', ih (by omega), CoreState.takeOutput_of_some hx, Nat.add_assoc]

end

/-- R331: no command's work on its core is answered with Busy. -/
theorem HostCmd.act_reply_ne_busy (c : HostCmd) (p : Params) (k : CoreState) : (c.act p k).1 ≠ .refused .busy := by
  cases c with
  | run => exact HostReply.noConfusion
  | feed vs =>
    simp only [HostCmd.act]
    obtain ⟨-, e⟩ | ⟨-, e⟩ := k.hostFeed_cases p vs <;> simp [e]
  | takeOutput =>
    simp only [HostCmd.act]
    cases h : k.outLog[k.outCur]? with
    | some x => simp [CoreState.takeOutput_of_some h]
    | none => simp [CoreState.takeOutput_of_none h]
  | outputs => exact HostReply.noConfusion
  | memoryAt a =>
    simp only [HostCmd.act]
    obtain h | h := lt_or_ge a.toInt 0
    · simp [CoreState.memoryAt_of_neg h]
    · simp [CoreState.memoryAt_of_nonneg h]
  | drain => exact HostReply.noConfusion

/-! ## The commands to a core of the block -/

section
variable {s : State} {i : Nat} {k : CoreState} {c : HostCmd} (h : s.coreAt i = some k)
include h

/-- R331: a served command's reply and its state, from what it does on the core. -/
theorem State.command_of_act {r : HostReply} {k' : CoreState} (hb : k.busy = false) (hc : c ≠ .run)
    (hact : c.act s.params k = (r, k')) : s.command i c = (r, s.setCore i k') := by
  rw [State.command_served h hc hb, hact]

/-- A served command that leaves its core as it was leaves the whole state. -/
theorem State.command_of_act_same {r : HostReply} (hb : k.busy = false) (hc : c ≠ .run)
    (hact : c.act s.params k = (r, k)) : s.command i c = (r, s) := by
  rw [State.command_of_act h hb hc hact, State.setCore_self h]

/-- R331: a BUSY core refuses `run` and every other command, and nothing changes. -/
theorem State.command_of_busy (hb : k.busy = true) : s.command i c = (.refused .busy, s) := by
  by_cases hc : c = .run
  · subst hc
    obtain ⟨e, -⟩ | ⟨-, -, hk, -⟩ := State.command_run_cases h
    · exact e
    · exact absurd (hb.symm.trans hk) (by decide)
  · rw [State.command_of_ne_run h hc, State.serve_eq, if_pos hb]

/-- R38, R140: `run` on a Faulted core returns at once and leaves the state as it is. -/
theorem State.command_run_of_faulted (hf : k.status = .faulted) (hb : s.busy = false) (hs : s.scheduling = false)
    (hk : k.busy = false) : s.command i .run = (.returned .faulted k.fault, s) := by
  obtain ⟨-, hbusy⟩ | ⟨-, -, -, ⟨-, e⟩ | ⟨hnot, -⟩⟩ := State.command_run_cases h
  · simp [hb, hs, hk] at hbusy
  · rw [e, hf]
  · exact absurd (.inr hf) hnot

end

/-! ## The answer -/

theorem State.coreAt_last {s : State} {ks : List CoreState} {k : CoreState} (h : s.cores = ks ++ [k]) :
    s.coreAt (s.netN - 1) = some k := by
  simp [State.coreAt, ← State.length_cores, h]

theorem State.answer_of_getLast?_some {s : State} {k : CoreState} {x : Word} (h : s.coreAt (s.netN - 1) = some k)
    (hx : k.outLog.getLast? = some x) : s.answer = .done x := by
  simp only [State.answer, h, hx]

theorem State.answer_of_getLast?_none {s : State} {k : CoreState} (h : s.coreAt (s.netN - 1) = some k)
    (hx : k.outLog.getLast? = none) : s.answer = .failed .noAnswer := by
  simp only [State.answer, h, hx]

end Sys2Proof.Machine

namespace Sys2Proof

open Machine

/-! ## The statements of the family -/

/-- Settles O34: an instruction that completes leaves the core not Faulted, so the step was the fault action. -/
theorem aFaultingStepHasNoOtherEffect : Obligations.AFaultingStepHasNoOtherEffect := by
  intro s t hb hr hstep hf
  rw [step_running hb hr] at hstep
  obtain ⟨c, rfl⟩ := State.engineStep_faulted hstep hr hf
  refine ⟨⟨c, rfl⟩, rfl, rfl, rfl, rfl, rfl, rfl, s.raise_sameBlock c, fun hv => ?_⟩
  rw [State.raise_fault_of_invalid hv]
  exact ⟨rfl, rfl⟩

/-- Settles O35: the record, the operand each check names, and `run` on a Faulted core. -/
theorem faultActionKeepsTheFirstFault : Obligations.FaultActionKeepsTheFirstFault :=
  ⟨fun _ c => ⟨rfl, fun hv => State.raise_fault_of_invalid hv c, fun hv => State.raise_fault_of_valid hv c, rfl⟩,
    fun _ _ _ _ _ => ⟨State.resolveRead_error_operand, State.resolveWrite_error_operand,
      State.fetch_error_operand, State.seqNext_error_operand⟩,
    fun _ _ _ => State.command_run_of_faulted⟩

/-- Settles O54, by induction on the number of `takeOutput` issued. -/
theorem drainIsRepeatedTakeOutput : Obligations.DrainIsRepeatedTakeOutput := by
  refine ⟨fun s i k h hb => State.command_of_act h hb HostCmd.noConfusion rfl,
    fun k hle => ⟨rfl, ?_, fun n x hx => ?_⟩⟩
  · have hend : k.outCur + k.buffered.length = k.outLog.length := by
      simp only [CoreState.buffered, List.length_drop]
      omega
    rw [CoreState.takeOutput_iterate le_rfl, hend, CoreState.drained]
  · have hn : n < k.buffered.length := (List.getElem?_eq_some_iff.1 hx).1
    rw [CoreState.getElem?_buffered] at hx
    rw [CoreState.takeOutput_iterate hn.le, CoreState.takeOutput_of_some hx]

/-- Settles O52: a feed past IN_CAP leaves its core, and so the state, as it was. -/
theorem feedAppendsAllOrNothing : Obligations.FeedAppendsAllOrNothing := by
  intro s i k vs h hb
  obtain ⟨hw, e⟩ | ⟨hw, e⟩ := k.hostFeed_cases s.params vs
  · refine ⟨fun _ => ?_, fun hpast => absurd (hw.symm.trans hpast) (by decide)⟩
    exact State.command_of_act h hb HostCmd.noConfusion e
  · refine ⟨fun hwithin => absurd (hw.symm.trans hwithin) (by decide), fun _ => ?_⟩
    exact State.command_of_act_same h hb HostCmd.noConfusion e

/-- Settles O53, from what each command does on its core. -/
theorem outputAndInspectionCommands : Obligations.OutputAndInspectionCommands := by
  intro s i k h hb
  refine ⟨fun x hx => ?_, fun hend => ?_, ?_, fun a ha => ?_, fun a ha => ?_⟩
  · exact State.command_of_act h hb HostCmd.noConfusion (CoreState.takeOutput_of_some hx)
  · have hnone : k.outLog[k.outCur]? = none := List.getElem?_eq_none hend.ge
    exact State.command_of_act h hb HostCmd.noConfusion (CoreState.takeOutput_of_none hnone)
  · exact State.command_of_act_same h hb HostCmd.noConfusion rfl
  · exact State.command_of_act_same h hb HostCmd.noConfusion (CoreState.memoryAt_of_nonneg ha)
  · exact State.command_of_act h hb HostCmd.noConfusion (CoreState.memoryAt_of_neg ha)

/-- Settles O55: BUSY refuses before the command is looked at, and no command served answers Busy. -/
theorem busyCoresRefuseCommands : Obligations.BusyCoresRefuseCommands := by
  intro s i k c h
  refine ⟨State.command_of_busy h, fun hb hc => ?_⟩
  rw [State.command_served h hc hb]
  exact c.act_reply_ne_busy s.params k

/-- Settles O59: the last core of the list is core `NET_N - 1`. -/
theorem answerIsTheLastCoresLastOutput : Obligations.AnswerIsTheLastCoresLastOutput := by
  intro s ks k h
  have hlast := State.coreAt_last h
  exact ⟨fun l x hx => State.answer_of_getLast?_some hlast (by simp [hx]),
    fun hnil => State.answer_of_getLast?_none hlast (by simp [hnil])⟩

end Sys2Proof
end

section
/-! Construction (spec/70_reset_and_hazards.md, R400): one lemma for each answer of `CoreState.construct`, and the memory
of a boot image placed at address 0. -/

namespace Sys2Proof.Machine

variable {p : Params} {program inputs : List Word}

theorem CoreState.construct_of_tooLong (hlong : p.memLimit < program.length) :
    CoreState.construct p program inputs = .error .programTooLong :=
  if_pos hlong

theorem CoreState.construct_of_inputsPastCap (hfit : program.length ≤ p.memLimit)
    (hpast : withinCap p.inCap inputs.length = false) :
    CoreState.construct p program inputs = .error .inputQueueFull := by
  rw [CoreState.construct, if_neg (not_lt.2 hfit), if_neg (by simp [hpast])]

theorem CoreState.construct_of_fits (hfit : program.length ≤ p.memLimit)
    (hwithin : withinCap p.inCap inputs.length = true) :
    CoreState.construct p program inputs =
      .ok (CoreState.constructed (Memory.ofWords 0 program) inputs) := by
  rw [CoreState.construct, if_neg (not_lt.2 hfit), if_pos hwithin]

/-- R400: a boot image at address 0 reads as its words, and as 0 past them. -/
theorem Memory.read_ofWords_zero (program : List Word) (a : Nat) :
    (Memory.ofWords 0 program).read a = program.getD a 0 := by
  rw [Memory.read_ofWords, if_pos a.zero_le, Nat.sub_zero]

end Sys2Proof.Machine

namespace Sys2Proof

open Machine

/-- Settles O60: one lemma of `CoreState.construct` for each clause; every element but memory has its value from R48 by
definition of `CoreState.constructed`. -/
theorem constructionCopiesTheProgram : Obligations.ConstructionCopiesTheProgram := by
  intro p program inputs
  refine ⟨CoreState.construct_of_tooLong, CoreState.construct_of_inputsPastCap, fun hfit hwithin => ?_⟩
  exact ⟨_, CoreState.construct_of_fits hfit hwithin, Memory.read_ofWords_zero program,
    rfl, rfl, rfl, rfl, rfl, rfl, rfl, rfl⟩

end Sys2Proof
end

section
/-! The decoder and the encoder as inverses (spec/30_encoding.md, R102, R103), and the fetch read as a decoding of the words
at IP (spec/40_execution_cycle.md, R130 to R133). -/

namespace Sys2Proof

/-! ## The canonical head -/

/-- R102: the mode in position `k` of the canonical instruction word: digit 0 where there is no operand. -/
def modeAt (os : List Operand) (k : Nat) : Mode := (os[k]?.map Operand.mode).getD .position

/-- R102: the head that the canonical instruction word decodes to. -/
def Instr.head (i : Instr) : Head :=
  { op := i.opcode, a := modeAt i.operands 0, b := modeAt i.operands 1, c := modeAt i.operands 2 }

theorem modeDigits_eq {os : List Operand} (h : os.length ≤ 3) :
    modeDigits os = (modeAt os 0).digit + 10 * (modeAt os 1).digit + 100 * (modeAt os 2).digit := by
  match os with
  | [] => rfl
  | [a] => simp [modeDigits, modeAt, Mode.digit]
  | [a, b] => simp [modeDigits, modeAt, Mode.digit]
  | [a, b, c] => simp [modeDigits, modeAt]; omega
  | _ :: _ :: _ :: _ :: _ => simp at h; omega

theorem Instr.length_eq (i : Instr) : i.length = i.operands.length + 1 := by cases i <;> rfl

theorem Instr.length_operands_le (i : Instr) : i.operands.length ≤ 3 := by
  have hmax : i.length ≤ 4 := i.opcode.length_le
  have := i.length_eq
  omega

/-- R90, R102: the canonical word is the word of its head's digits. -/
theorem Instr.head_value (i : Instr) : i.head.value = i.headValue := by
  simp only [Head.value, Instr.headValue, modeDigits_eq i.length_operands_le, Instr.head]
  omega

theorem decodeHead_headValue (i : Instr) : decodeHead (BitVec.ofNat 64 i.headValue) = .ok i.head := by
  have hle := i.headValue_le
  have hnat : (BitVec.ofNat 64 i.headValue).toNat = i.headValue := by
    rw [BitVec.toNat_ofNat]
    omega
  have hint : (0 : Int) ≤ (BitVec.ofNat 64 i.headValue).toInt := by
    rw [BitVec.toInt_eq_toNat_of_lt (by omega)]
    omega
  refine decodeHead_ok.2 ⟨hint, ?_⟩
  rw [hnat, i.head_value]
  omega

/-! ## Decode after encode -/

theorem decode_of_head {w : Word} {ws : List Word} {h : Head} (hd : decodeHead w = .ok h)
    (hlen : h.op.length - 1 ≤ ws.length) :
    decode (w :: ws) =
      .ok (assemble h (ws.getD 0 0) (ws.getD 1 0) (ws.getD 2 0), ws.drop (h.op.length - 1)) := by
  simp only [decode, hd, not_lt.2 hlen, if_false]

/-- R97, R98: the raw operand words of an instruction, whatever follows them, give its operands back. -/
theorem assemble_head (i : Instr) (rest : List Word) :
    let ws := i.operands.map (·.raw) ++ rest
    assemble i.head (ws.getD 0 0) (ws.getD 1 0) (ws.getD 2 0) = i := by
  cases i <;> rfl

/-- Settles O2: the canonical word decodes to the instruction's own head, and the raw words after it fill its operands. -/
theorem decodeOfEncodeIsTheInstruction : Obligations.DecodeOfEncodeIsTheInstruction := by
  intro i rest
  have hop : i.head.op.length - 1 = (i.operands.map (·.raw)).length := by
    have := i.length_eq
    simp only [Instr.length] at this
    simp [Instr.head, this]
  have hdrop : (i.operands.map (·.raw) ++ rest).drop (i.head.op.length - 1) = rest := by
    rw [hop, List.drop_left]
  rw [encode, List.cons_append, decode_of_head (decodeHead_headValue i) (by rw [hop]; simp), hdrop,
    assemble_head i rest]

/-! ## Encode after decode -/

theorem assemble_raws (h : Head) (r0 r1 r2 : Word) :
    (assemble h r0 r1 r2).operands.map (·.raw) = [r0, r1, r2].take (h.op.length - 1) := by
  obtain ⟨op, a, b, c⟩ := h
  cases op <;> rfl

theorem take_getD {ws : List Word} {n : Nat} (h : n ≤ ws.length) (h3 : n ≤ 3) :
    [ws.getD 0 0, ws.getD 1 0, ws.getD 2 0].take n = ws.take n := by
  refine List.ext_getElem (by simp; omega) fun k hk hk' => ?_
  have hkn : k < n := (List.length_take ▸ hk).trans_le (min_le_left _ _)
  have hk3 : k < 3 := by omega
  have hkw : k < ws.length := by omega
  interval_cases k <;> simp [hkw]

/-- R94, R102: a head whose unused mode positions hold digit 0 is the head of its instruction. -/
theorem head_assemble {h : Head} {r0 r1 r2 : Word} (ha : (assemble h r0 r1 r2).operands.length ≤ 0 → h.a = .position)
    (hb : (assemble h r0 r1 r2).operands.length ≤ 1 → h.b = .position)
    (hc : (assemble h r0 r1 r2).operands.length ≤ 2 → h.c = .position) : (assemble h r0 r1 r2).head = h := by
  obtain ⟨op, a, b, c⟩ := h
  cases op <;> simp_all [assemble, Instr.operands, Instr.head, modeAt, Instr.opcode]

theorem Mode.eq_position {m : Mode} (h : m.digit = 0) : m = .position := by
  cases m with
  | position => rfl
  | immediate => cases h
  | relative => cases h

/-- R90: the mode digits of a word that decodes. -/
theorem decodeHead_digits {w : Word} {h : Head} (hd : decodeHead w = .ok h) :
    digit 2 w = h.a.digit ∧ digit 3 w = h.b.digit ∧ digit 4 w = h.c.digit := by
  obtain ⟨-, hv⟩ := decodeHead_ok.1 hd
  have := h.op.code_lt
  have := h.a.digit_le
  have := h.b.digit_le
  have := h.c.digit_le
  unfold Head.value at hv
  unfold digit
  omega

/-- Settles O3: a canonical word is the word of its head's digits, and that head is the instruction's own. -/
theorem encodeOfDecodeIsTheCanonicalWords : Obligations.EncodeOfDecodeIsTheCanonicalWords := by
  intro w ws rest i hd hw hunused
  obtain ⟨h, hh, hlen, rfl, rfl⟩ := decode_cons_ok hd
  obtain ⟨d2, d3, d4⟩ := decodeHead_digits hh
  have hhead := head_assemble (h := h) (r0 := ws.getD 0 0) (r1 := ws.getD 1 0) (r2 := ws.getD 2 0)
    (fun hn => Mode.eq_position (d2.symm.trans (hunused 0 (by decide) hn)))
    (fun hn => Mode.eq_position (d3.symm.trans (hunused 1 (by decide) hn)))
    (fun hn => Mode.eq_position (d4.symm.trans (hunused 2 (by decide) hn)))
  have hword : BitVec.ofNat 64 (assemble h (ws.getD 0 0) (ws.getD 1 0) (ws.getD 2 0)).headValue = w := by
    obtain ⟨-, hv⟩ := decodeHead_ok.1 hh
    rw [← Instr.head_value, hhead, ← hv, Nat.mod_eq_of_lt hw, BitVec.ofNat_toNat, BitVec.setWidth_eq]
  have h3 : h.op.length - 1 ≤ 3 := by
    have : h.op.length ≤ 4 := h.op.length_le
    omega
  rw [encode, hword, assemble_raws, take_getD hlen h3, List.cons_append, List.take_append_drop]

/-- Settles O1, by running the decoder on the ten sequences. -/
theorem decodeOfTheSpecsWords : Obligations.DecodeOfTheSpecsWords := by
  unfold Obligations.DecodeOfTheSpecsWords
  decide

/-! ## The fetch as a decoding -/

/-- R97: raw words past the opcode's operands have no effect. -/
theorem assemble_congr {h : Head} {r r' : Nat → Word} (hr : ∀ k, k + 1 < h.op.length → r k = r' k) :
    assemble h (r 0) (r 1) (r 2) = assemble h (r' 0) (r' 1) (r' 2) := by
  obtain ⟨op, a, b, c⟩ := h
  cases op <;> simp_all [assemble, Opcode.length]

namespace Machine

/-- R98, R133: the raw operands fetched are the words after IP, in order. -/
theorem State.rawOperand_eq {s : State} {len k : Nat} (h0 : 0 ≤ s.ip.toInt) (hk : k + 1 < len) :
    s.rawOperand len k = s.mem.read (s.ip.toNat + (k + 1)) := by
  have haddr : (s.ip.toInt + 1 + k).toNat = s.ip.toNat + (k + 1) := by
    have := toNat_of_nonneg h0
    omega
  rw [State.rawOperand, if_pos hk, haddr]

theorem State.engineStep_of_negativeIp {s : State} (h : s.ip.toInt < 0) :
    s.engineStep = .next (s.raise { reason := .negativeAddress, addr := some s.ip.toInt, operand := none }) := by
  have hf : s.fetch = .error { reason := .negativeAddress, addr := some s.ip.toInt, operand := none } :=
    bind_error.2 (.inl (if_pos h))
  rw [State.engineStep, hf]

/-- R95: the word 0, which a cell never written holds, is no opcode. -/
theorem decodeWord_zero :
    decodeWord 0 = .error { reason := .invalidOpcode, addr := none, operand := none } := by
  decide

end Machine

open Machine in
/-- Settles O7: the fetch reads the words that `decode` takes, and no others matter. -/
theorem stepRunsTheDecodedInstruction : Obligations.StepRunsTheDecodedInstruction := by
  intro s n i rest hb hr h0 hn hd
  cases n with
  | zero => cases hd
  | succ m =>
    rw [List.range_succ_eq_map, List.map_cons, List.map_map] at hd
    obtain ⟨h, hh, hlen, rfl, -⟩ := decode_cons_ok hd
    have hm : h.op.length ≤ m + 1 := by
      simp only [List.length_map, List.length_range] at hlen
      omega
    have hip : s.ip.toInt.toNat = s.ip.toNat := by
      have := toNat_of_nonneg h0
      omega
    have hf : s.fetch = .ok (assemble h (s.rawOperand h.op.length 0) (s.rawOperand h.op.length 1)
        (s.rawOperand h.op.length 2)) :=
      State.fetch_ok.2 ⟨h0, h, by rw [hip]; exact hh, by omega, rfl⟩
    have hraw : ∀ k, k + 1 < h.op.length → s.rawOperand h.op.length k =
        ((List.range m).map ((fun k => s.mem.read (s.ip.toNat + k)) ∘ Nat.succ)).getD k 0 := by
      intro k hk
      rw [State.rawOperand_eq h0 hk, List.getD_eq_getElem _ _ (by simp; omega)]
      simp
    rw [step_running hb hr, State.engineStep, hf]
    exact congrArg (exec · s) (assemble_congr hraw)

open Machine in
/-- Settles O8: the two checks of the fetch, and the word 0 as one that the decoder rejects. -/
theorem fetchFaults : Obligations.FetchFaults := by
  intro s hb hr
  rw [step_running hb hr]
  exact ⟨State.engineStep_of_negativeIp, fun h0 c => State.engineStep_of_decodeWord_error h0,
    fun h0 hz => State.engineStep_of_decodeWord_error h0 (hz ▸ decodeWord_zero)⟩

end Sys2Proof
end

section
/-! The invariant of the whole machine: it holds after construction, and every step and every host command keeps it
(spec/10_state.md, sections 3 to 12; spec/60_exceptions.md, R331, R350 to R356). -/

namespace Sys2Proof.Machine

/-! ## BUSY over the block -/

/-- No core but the one in front of the engine is BUSY, said by index. -/
theorem State.parked_iff {s : State} :
    ((∀ k ∈ s.before, k.busy = false) ∧ ∀ k ∈ s.after, k.busy = false) ↔
      ∀ j k, j ≠ s.before.length → s.coreAt j = some k → k.busy = false := by
  constructor
  · rintro ⟨hbefore, hafter⟩ j k hj hk
    rw [State.coreAt_eq, if_neg hj] at hk
    split at hk
    · exact hbefore k (List.mem_of_getElem? hk)
    · exact hafter k (List.mem_of_getElem? hk)
  · refine fun h => ⟨fun k hk => ?_, fun k hk => ?_⟩
    · obtain ⟨j, hj⟩ := List.getElem?_of_mem hk
      have hlt : j < s.before.length := (List.getElem?_eq_some_iff.1 hj).1
      exact h j k hlt.ne (by rw [State.coreAt_eq, if_pos hlt, hj])
    · obtain ⟨j, hj⟩ := List.getElem?_of_mem hk
      refine h (s.before.length + 1 + j) k (by omega) ?_
      rw [State.coreAt_eq, if_neg (by omega), if_neg (by omega), ← hj]
      congr 1
      omega

theorem State.Inv.parked {s : State} (h : s.Inv) {j : Nat} {k : CoreState} (hj : j ≠ s.before.length)
    (hk : s.coreAt j = some k) : k.busy = false :=
  State.parked_iff.1 ⟨h.parked_before, h.parked_after⟩ j k hj hk

theorem State.Inv.coreAt {s : State} (h : s.Inv) {j : Nat} {k : CoreState} (hk : s.coreAt j = some k) :
    k.Inv s.params :=
  h.cores_inv k (State.mem_cores_of_coreAt hk)

/-- R331: while the core in front of the engine is not BUSY, none is. -/
theorem State.Inv.all_idle {s : State} (h : s.Inv) (hb : s.busy = false) :
    ∀ k ∈ s.cores, k.Inv s.params ∧ k.busy = false := by
  intro k hk
  refine ⟨h.cores_inv k hk, ?_⟩
  obtain hk | rfl | hk := State.mem_cores.1 hk
  · exact h.parked_before k hk
  · exact hb
  · exact h.parked_after k hk

/-- The invariant of a block in which no core is BUSY. -/
theorem State.Inv.of_idle {s : State} (hp : s.params.wf = true) (hcur : s.cur < s.netN)
    (hk : ∀ k ∈ s.cores, k.Inv s.params ∧ k.busy = false) : s.Inv where
  params_wf := hp
  cores_inv k h := (hk k h).1
  cur_lt := hcur
  parked_before k h := (hk k (State.mem_cores.2 (.inl h))).2
  parked_after k h := (hk k (State.mem_cores.2 (.inr (.inr h)))).2
  running_core_is_cur _ hb := by
    obtain ⟨-, hidle⟩ := hk s.toCoreState (State.mem_cores.2 (.inr (.inl rfl)))
    exact absurd (hidle.symm.trans hb) (by decide)

/-! ## The steps -/

theorem State.netN_congr {s t : State} (h : t.cores = s.cores) : t.netN = s.netN := by
  rw [← State.length_cores, h, State.length_cores]

/-- R45, R46: an instruction keeps the invariant: its own core's, and nothing else changes. -/
theorem State.Inv.engineStep {s t : State} (h : s.Inv) (hr : s.status = .running)
    (hst : s.engineStep = .next t) : t.Inv := by
  obtain ⟨hp, hbefore, hafter, hcur, -, -, hs, hb, -⟩ := State.engineStep_sameBlock hst
  have hfront : s.toCoreState.Inv s.params := h.coreAt s.coreAt_front
  refine ⟨hp ▸ h.params_wf, fun k hk => ?_, ?_, hbefore ▸ h.parked_before, hafter ▸ h.parked_after, ?_⟩
  · rw [hp]
    rw [State.mem_cores, hbefore, hafter] at hk
    obtain hk | rfl | hk := hk
    · exact h.cores_inv k (State.mem_cores.2 (.inl hk))
    · exact State.engineStep_inv hfront hr hst
    · exact h.cores_inv k (State.mem_cores.2 (.inr (.inr hk)))
  · rw [hcur, State.netN, hbefore, hafter]
    exact h.cur_lt
  · rw [hs, hb, hbefore, hcur]
    exact h.running_core_is_cur

/-- R140: the end of a run leaves a block that satisfies the invariant, with no core BUSY. -/
theorem State.Inv.setBusy_false {s : State} (h : s.Inv) : (s.setBusy false).Inv := by
  refine .of_idle h.params_wf h.cur_lt fun k hk => ?_
  obtain hk | rfl | hk := State.mem_cores.1 hk
  · exact ⟨h.cores_inv k (State.mem_cores.2 (.inl hk)), h.parked_before k hk⟩
  · have hfront : s.toCoreState.Inv s.params := h.coreAt s.coreAt_front
    exact ⟨⟨hfront.mem_fits, hfront.outCur_le, hfront.inq_le, hfront.outLog_le, hfront.fault_fits,
      hfront.faulted_iff⟩, rfl⟩
  · exact ⟨h.cores_inv k (State.mem_cores.2 (.inr (.inr hk))), h.parked_after k hk⟩

/-- R351: the scheduler's loop body keeps it, and CUR in range. -/
theorem State.Inv.afterRun {s : State} (h : s.Inv) (hb : s.busy = false) : s.afterRun.Inv := by
  obtain ⟨hk, hp, hn, hcur⟩ := State.afterRun_inv (h.all_idle hb)
  refine .of_idle (hp ▸ h.params_wf) ?_ (hp ▸ hk)
  rw [hn]
  obtain hcur | hcur := hcur
  · exact hcur ▸ h.cur_lt
  · exact hcur ▸ Nat.mod_lt _ s.netN_pos

theorem State.Inv.runReturn {s : State} (h : s.Inv) : s.runReturn.Inv := by
  unfold State.runReturn
  dsimp only
  split
  · exact h.setBusy_false.afterRun rfl
  · exact h.setBusy_false

/-- Which core stands in front of the engine matters only while it is BUSY. -/
theorem State.Inv.focus {s t : State} {i : Nat} (h : s.Inv) (hb : s.busy = false) (ht : s.focus i = some t) :
    t.Inv ∧ t.busy = false := by
  obtain ⟨hc, hi, -, hp, hcur, -, -, -⟩ := State.focus_some ht
  refine ⟨.of_idle (hp ▸ h.params_wf) ?_ ?_, (h.all_idle hb _ (State.mem_cores_of_coreAt hi)).2⟩
  · rw [hcur, State.netN_congr hc]
    exact h.cur_lt
  · rw [hc, hp]
    exact h.all_idle hb

/-- R140, R331: the start of a run keeps it, where under the scheduler the core that starts is core CUR. -/
theorem State.Inv.started {s : State} (h : s.Inv) (hst : ¬ (s.status = .halted ∨ s.status = .faulted))
    (hcur : s.scheduling = true → s.before.length = s.cur) : ((s.setStatus .running).setBusy true).Inv where
  params_wf := h.params_wf
  cores_inv k hk := by
    obtain hk | rfl | hk := State.mem_cores.1 hk
    · exact h.cores_inv k (State.mem_cores.2 (.inl hk))
    · have hfront : s.toCoreState.Inv s.params := h.coreAt s.coreAt_front
      have hv : s.status = .faulted ↔ s.fault.valid = true := hfront.faulted_iff
      have hnv : s.fault.valid = false := by simpa using fun hf => hst (.inr (hv.2 hf))
      exact ⟨hfront.mem_fits, hfront.outCur_le, hfront.inq_le, hfront.outLog_le, hfront.fault_fits, by simp [hnv]⟩
    · exact h.cores_inv k (State.mem_cores.2 (.inr (.inr hk)))
  cur_lt := h.cur_lt
  parked_before := h.parked_before
  parked_after := h.parked_after
  running_core_is_cur hs _ := hcur hs

/-- R351: a turn of the scheduler keeps it. -/
theorem State.Inv.schedStep {s t : State} (h : s.Inv) (hb : s.busy = false) (hst : s.schedStep = .next t) : t.Inv := by
  obtain ⟨-, rfl⟩ | ⟨-, -, rfl⟩ | ⟨-, -, u, hu, ⟨-, rfl⟩ | ⟨hnot, rfl⟩⟩ := State.schedStep_cases hst
  · exact .of_idle h.params_wf h.cur_lt (h.all_idle hb)
  · exact .of_idle h.params_wf h.cur_lt (h.all_idle hb)
  · obtain ⟨hui, hub⟩ := h.focus hb hu
    exact hui.afterRun hub
  · obtain ⟨-, -, hlen, -, hcur, -⟩ := State.focus_some hu
    rw [State.runBegin_eq hnot]
    exact (h.focus hb hu).1.started hnot fun _ => hlen.trans hcur.symm

/-! ## The commands -/

/-- A core stored back with its BUSY as it was keeps the invariant of the machine. -/
theorem State.Inv.setCore {s : State} {i : Nat} {k k' : CoreState} (h : s.Inv) (hk : s.coreAt i = some k)
    (hk' : k'.Inv s.params) (hb : k'.busy = k.busy) : (s.setCore i k').Inv := by
  have hi := State.coreAt_lt hk
  have hparked := State.parked_iff (s := s.setCore i k').2 fun j c hj hc => by
    rw [State.setCore_length_before] at hj
    rw [State.coreAt_setCore] at hc
    split at hc
    · next e =>
      cases hc
      exact hb.trans (h.parked (e ▸ hj) hk)
    · exact h.parked hj hc
  have hbusy : (s.setCore i k').busy = s.busy := by
    have hfront := (s.setCore i k').coreAt_front
    rw [State.setCore_length_before, State.coreAt_setCore] at hfront
    split at hfront
    · next e =>
      rw [e, State.coreAt_front] at hk
      cases hk
      exact (congrArg CoreState.busy (Option.some.inj hfront)).symm.trans hb
    · rw [State.coreAt_front] at hfront
      exact (congrArg CoreState.busy (Option.some.inj hfront)).symm
  refine ⟨by simpa using h.params_wf, ?_, by simpa using h.cur_lt, hparked.1, hparked.2, fun hs hb => ?_⟩
  · rw [State.setCore_params]
    exact State.forall_setCore h.cores_inv hk'
  · rw [State.setCore_length_before, State.setCore_cur]
    exact h.running_core_is_cur (State.setCore_scheduling s i k' ▸ hs) (hbusy ▸ hb)

/-- R330, R331: a command keeps the invariant. -/
theorem State.Inv.command {s : State} (h : s.Inv) (i : Nat) (c : HostCmd) : (s.command i c).2.Inv := by
  cases hk : s.coreAt i with
  | none =>
    have : s.command i c = (.refused .noSuchCore, s) := by simp only [State.command, hk]
    rw [this]
    exact h
  | some k =>
    by_cases hc : c = .run
    · subst hc
      obtain ⟨e, -⟩ | ⟨hb, hs, -, ⟨-, e⟩ | ⟨hst, t, ht, e⟩⟩ := State.command_run_cases hk
      · exact e ▸ h
      · exact e ▸ h
      · obtain ⟨-, hi, -, -, -, -, -, hts⟩ := State.focus_some ht
        rw [e]
        rw [hk] at hi
        cases hi
        exact (h.focus hb ht).1.started hst fun hsched => absurd (hsched.symm.trans (hts.trans hs)) (by decide)
    · rw [State.command_of_ne_run hk hc, State.serve_eq]
      split
      · exact h
      · obtain ⟨hinv, hbusy⟩ := (h.coreAt hk).act c
        exact h.setCore hk hinv hbusy

theorem State.Inv.schedule {s : State} (h : s.Inv) : s.schedule.2.Inv := by
  unfold State.schedule
  split
  · exact h
  · next hidle =>
    have hb : s.busy = false := by simp at hidle; exact hidle.1
    exact .of_idle h.params_wf h.cur_lt (h.all_idle hb)

/-! ## A step exists -/

theorem State.engineStep_isNext (s : State) : ∃ t, s.engineStep = .next t := by
  unfold State.engineStep
  cases s.fetch with
  | ok i => exact exec_isNext i s
  | error c => exact ⟨_, rfl⟩

/-- R47: with CUR in range the scheduler has a core to run. -/
theorem State.schedStep_isNext {s : State} (h : s.cur < s.netN) : ∃ t, s.schedStep = .next t := by
  obtain ⟨u, hu⟩ := State.focus_isSome h
  unfold State.schedStep
  rw [hu]
  dsimp only
  split
  · exact ⟨_, rfl⟩
  · split
    · exact ⟨_, rfl⟩
    · split
      · exact ⟨_, rfl⟩
      · exact ⟨_, rfl⟩

/-! ## Construction -/

theorem CoreState.construct_ok {p : Params} {program inputs : List Word} {k : CoreState}
    (h : CoreState.construct p program inputs = .ok k) :
    program.length ≤ p.memLimit ∧ withinCap p.inCap inputs.length = true ∧
      k = CoreState.constructed (Memory.ofWords 0 program) inputs := by
  unfold CoreState.construct at h
  split at h
  · cases h
  · next hlen =>
    split at h
    · next hw => cases h; exact ⟨not_lt.1 hlen, hw, rfl⟩
    · cases h

/-- R48: a constructed core satisfies its invariant. -/
theorem CoreState.constructed_inv {p : Params} {program inputs : List Word} (hlen : program.length ≤ p.memLimit)
    (hw : withinCap p.inCap inputs.length = true) :
    (CoreState.constructed (Memory.ofWords 0 program) inputs).Inv p where
  mem_fits := by
    refine ⟨Memory.ofWords_wf 0 program, fun c hc => ?_⟩
    have := (Memory.mem_ofWords hc).2
    omega
  outCur_le := Nat.le_refl 0
  inq_le := hw
  outLog_le := by
    show withinCap p.outCap 0 = true
    cases p.outCap <;> simp [withinCap]
  fault_fits := .inl rfl
  faulted_iff := by simp [CoreState.constructed, FaultRecord.none]

theorem constructCores_ok {p : Params} {program : List Word} {inits : List (List Word)} {ks : List CoreState}
    (h : constructCores p program inits = .ok ks) :
    (∀ inputs ∈ inits, ∃ k, CoreState.construct p program inputs = .ok k) ∧
      ks = inits.map (CoreState.constructed (Memory.ofWords 0 program)) := by
  induction inits generalizing ks with
  | nil => cases h; exact ⟨by simp, rfl⟩
  | cons inputs rest ih =>
    simp only [constructCores, bind_ok, pure_ok] at h
    obtain ⟨k, hk, ks', hks, rfl⟩ := h
    obtain ⟨hall, rfl⟩ := ih hks
    obtain ⟨-, -, rfl⟩ := CoreState.construct_ok hk
    exact ⟨List.forall_mem_cons.2 ⟨⟨_, hk⟩, hall⟩, rfl⟩

theorem constructCores_error {p : Params} {program : List Word} {inits : List (List Word)} {e : HostRefusal}
    (h : constructCores p program inits = .error e) :
    ∃ inputs ∈ inits, CoreState.construct p program inputs = .error e := by
  induction inits with
  | nil => cases h
  | cons inputs rest ih =>
    simp only [constructCores, bind_error, pure_error, and_false, exists_false, or_false] at h
    obtain h | ⟨-, -, h⟩ := h
    · exact ⟨inputs, List.mem_cons_self, h⟩
    · obtain ⟨inputs', hmem, h⟩ := ih h
      exact ⟨inputs', List.mem_cons_of_mem _ hmem, h⟩

section
variable {p : Params} {program init : List Word} {rest : List (List Word)}

/-- R350: the block a network's cores stand in. -/
theorem State.network_ok {s : State} (h : State.network p program init rest = .ok s) :
    ∃ k ks, constructCores p program (init :: rest) = .ok (k :: ks) ∧
      s = { toCoreState := k, params := p, before := [], after := ks, cur := 0, runs := 0,
            nstatus := .scheduling, scheduling := false } := by
  simp only [State.network, bind_ok, pure_ok] at h
  obtain ⟨k, hk, ks, hks, rfl⟩ := h
  exact ⟨k, ks, bind_ok.2 ⟨k, hk, bind_ok.2 ⟨ks, hks, rfl⟩⟩, rfl⟩

theorem State.network_error {e : HostRefusal} (h : State.network p program init rest = .error e) :
    ∃ inputs ∈ init :: rest, CoreState.construct p program inputs = .error e := by
  simp only [State.network, bind_error, pure_error, and_false, exists_false, or_false] at h
  refine constructCores_error (bind_error.2 ?_)
  obtain h | ⟨k, hk, h⟩ := h
  · exact .inl h
  · exact .inr ⟨k, hk, bind_error.2 (.inl h)⟩

/-- R48, R350: a constructed network's elements. -/
theorem State.network_elements {s : State} (h : State.network p program init rest = .ok s) :
    s.params = p ∧ s.cur = 0 ∧ s.runs = 0 ∧ s.nstatus = .scheduling ∧ s.scheduling = false ∧
      s.cores = (init :: rest).map (CoreState.constructed (Memory.ofWords 0 program)) := by
  obtain ⟨k, ks, hks, rfl⟩ := State.network_ok h
  exact ⟨rfl, rfl, rfl, rfl, rfl, (constructCores_ok hks).2⟩

theorem State.network_inv {s : State} (hp : p.wf = true) (h : State.network p program init rest = .ok s) :
    s.Inv := by
  obtain ⟨hparams, hcur, -, -, -, hcores⟩ := State.network_elements h
  obtain ⟨k, ks, hks, -⟩ := State.network_ok h
  refine .of_idle (hparams ▸ hp) (hcur ▸ s.netN_pos) fun c hc => ?_
  rw [hcores] at hc
  obtain ⟨inputs, hmem, rfl⟩ := List.mem_map.1 hc
  obtain ⟨c, hc⟩ := (constructCores_ok hks).1 inputs hmem
  obtain ⟨hlen, hw, -⟩ := CoreState.construct_ok hc
  exact ⟨hparams ▸ CoreState.constructed_inv hlen hw, rfl⟩

end

end Sys2Proof.Machine

namespace Sys2Proof

open Machine

/-! ## The statements -/

/-- Settles O41: one lemma for each of the four things a step can be. -/
theorem everyStepKeepsTheInvariant : Obligations.EveryStepKeepsTheInvariant := by
  intro s t h hst
  obtain ⟨-, hr, he⟩ | ⟨-, -, rfl⟩ | ⟨hb, -, he⟩ | ⟨-, -, rfl⟩ := step_cases hst
  · exact h.engineStep hr he
  · exact h.runReturn
  · exact h.schedStep hb he
  · exact h

/-- Settles O43: `run` starts a core of an idle block, and any other command stores one core back. -/
theorem everyCommandKeepsTheInvariant : Obligations.EveryCommandKeepsTheInvariant :=
  fun _ h => ⟨h.command, h.schedule⟩

/-- Settles O44, by induction on the sequences of inputs. -/
theorem constructionSatisfiesTheInvariant : Obligations.ConstructionSatisfiesTheInvariant := by
  intro p program init rest
  refine ⟨⟨?_, fun hall => ?_⟩, fun e => State.network_error,
    fun s hp h => ⟨State.network_inv hp h, State.network_elements h⟩⟩
  · rintro ⟨s, h⟩
    obtain ⟨k, ks, hks, -⟩ := State.network_ok h
    exact (constructCores_ok hks).1
  · cases h : State.network p program init rest with
    | ok s => exact ⟨s, rfl⟩
    | error e =>
      obtain ⟨inputs, hmem, herr⟩ := State.network_error h
      obtain ⟨k, hok⟩ := hall inputs hmem
      exact absurd (hok.symm.trans herr) (by simp)

/-- Settles O42: reset is the block constructed of one core with the empty program. -/
theorem resetSatisfiesTheInvariant : Obligations.ResetSatisfiesTheInvariant :=
  State.network_inv (p := Params.sourceFaithful) (program := []) (init := []) (rest := []) (by decide) rfl

/-- Settles O45: an instruction always answers a next state, and with CUR in range so does the scheduler. -/
theorem theMachineNeverStops : Obligations.TheMachineNeverStops := by
  intro s h
  cases hb : s.busy with
  | true =>
    by_cases hr : s.status = .running
    · rw [step_running hb hr]
      exact s.engineStep_isNext
    · exact ⟨_, step_returning hb hr⟩
  | false =>
    cases hs : s.scheduling with
    | true =>
      rw [step_scheduling hb hs]
      exact State.schedStep_isNext h.cur_lt
    | false => exact ⟨_, step_idle hb hs⟩

end Sys2Proof
end

section
/-! What each instruction does, and which of its checks it reports (spec/40_execution_cycle.md to 46_halt.md;
spec/60_exceptions.md, R304): one equation for each outcome of an effect, and the statements from them. -/

namespace Sys2Proof.Machine

/-! ## The first failing operand -/

section
variable {s : State} {a b dst : Operand} {c : FaultCause}

theorem effectRRW_of_first (f : Word → Word → Word) (h : s.resolveRead 0 a = .error c) :
    effectRRW f a b dst s = .error c :=
  bind_error.2 (.inl h)

theorem effectRRW_of_second (f : Word → Word → Word) (ha : s.readable a) (h : s.resolveRead 1 b = .error c) :
    effectRRW f a b dst s = .error c :=
  bind_error.2 (.inr ⟨_, State.resolveRead_of_readable 0 ha, bind_error.2 (.inl h)⟩)

theorem effectRRW_of_dst (f : Word → Word → Word) (ha : s.readable a) (hb : s.readable b)
    (h : s.resolveWrite 2 dst = .error c) : effectRRW f a b dst s = .error c :=
  bind_error.2 (.inr ⟨_, State.resolveRead_of_readable 0 ha,
    bind_error.2 (.inr ⟨_, State.resolveRead_of_readable 1 hb, bind_error.2 (.inl h)⟩)⟩)

theorem effectIn_of_dst (h : s.resolveWrite 0 dst = .error c) : effectIn dst s = .error c :=
  bind_error.2 (.inl h)

theorem effectJump_of_second (taken : Word → Bool) (ha : s.readable a) (h : s.resolveRead 1 b = .error c) :
    effectJump taken a b s = .error c :=
  bind_error.2 (.inr ⟨_, State.resolveRead_of_readable 0 ha, bind_error.2 (.inl h)⟩)

/-- R304: OUT, ARB, JT and JF resolve their first operand before anything else. -/
theorem effect_of_first {i : Instr} (hi : i = .out a ∨ i = .arb a ∨ i = .jt a b ∨ i = .jf a b)
    (h : s.resolveRead 0 a = .error c) : effect i s = .error c := by
  obtain rfl | rfl | rfl | rfl := hi <;> exact bind_error.2 (.inl h)

theorem State.resolveWrite_of_immediate (k : Fin 3) (h : s.effAddr dst = none) :
    s.resolveWrite k dst = .error { reason := .invalidWriteMode, addr := none, operand := some k } := by
  simp only [State.resolveWrite, h]

end

/-! ## Where every check passes -/

section
variable {s : State} {a b dst : Operand} {d : Nat}

theorem exec_rrw {i : Instr} {f : Word → Word → Word} (hi : i.rrw = some (f, a, b, dst)) (ha : s.readable a)
    (hb : s.readable b) (hd : s.writableAt dst d) (hn : s.continues 4) :
    exec i s = .next ((s.storeWord d (f (s.value a) (s.value b))).setIp (wrap64 (s.ip.toInt + 4))) := by
  refine exec_of_effect ?_
  rw [effect_rrw hi]
  exact effectRRW_ok.2 ⟨ha, hb, hn, d, hd, rfl⟩

theorem exec_inp_of_cons {x : Word} {xs : List Word} (hq : s.inq = x :: xs) (hd : s.writableAt dst d)
    (hn : s.continues 2) :
    exec (.inp dst) s = .next (((s.setInq xs).storeWord d x).setIp (wrap64 (s.ip.toInt + 2))) :=
  exec_of_effect (effectIn_ok.2 ⟨hn, d, hd, .inr ⟨x, xs, hq, rfl⟩⟩)

theorem exec_inp_of_nil (hq : s.inq = []) (hd : s.writableAt dst d) (hn : s.continues 2) :
    exec (.inp dst) s = .next (s.setStatus .waitingForInput) :=
  exec_of_effect (effectIn_ok.2 ⟨hn, d, hd, .inl ⟨hq, rfl⟩⟩)

theorem effectJump_of_not_taken {taken : Word → Bool} (ha : s.readable a) (hb : s.readable b)
    (ht : taken (s.value a) = false) (hn : s.continues 3) :
    effectJump taken a b s = .ok (s.setIp (wrap64 (s.ip.toInt + 3))) :=
  effectJump_ok.2 ⟨ha, hb, .inr ⟨ht, hn, rfl⟩⟩

end

/-! ## The full log -/

theorem State.outFull_iff {s : State} : s.outFull = true ↔ s.params.outCap = some s.outLog.length := by
  unfold State.outFull
  cases s.params.outCap with
  | none => simp
  | some c => simp [eq_comm]

theorem effectOut_of_full {s : State} {a : Operand} (ha : s.readable a) (hn : s.continues 2)
    (hf : s.outFull = true) :
    effectOut a s = .error { reason := .queueOverflow, addr := none, operand := none } :=
  bind_error.2 (.inr ⟨_, State.resolveRead_of_readable 0 ha,
    bind_error.2 (.inr ⟨_, State.seqNext_ok.2 ⟨hn, rfl⟩, if_pos hf⟩)⟩)

/-! ## The conditions -/

theorem ltWord_of_lt {x y : Word} (h : x.toInt < y.toInt) : ltWord x y = 1 := if_pos h
theorem ltWord_of_le {x y : Word} (h : y.toInt ≤ x.toInt) : ltWord x y = 0 := if_neg (not_lt.2 h)
theorem eqWord_of_eq {x y : Word} (h : x = y) : eqWord x y = 1 := if_pos h
theorem eqWord_of_ne {x y : Word} (h : x ≠ y) : eqWord x y = 0 := if_neg h
theorem nonZero_of_ne {x : Word} (h : x ≠ 0) : nonZero x = true := decide_eq_true h
theorem nonZero_of_eq {x : Word} (h : x = 0) : nonZero x = false := decide_eq_false (not_not_intro h)
theorem isZero_of_eq {x : Word} (h : x = 0) : isZero x = true := decide_eq_true h
theorem isZero_of_ne {x : Word} (h : x ≠ 0) : isZero x = false := decide_eq_false h

end Sys2Proof.Machine

namespace Sys2Proof

open Machine

/-! ## The statements about faults -/

/-- Settles O22: the checks in operand order, each failing after those before it have passed. -/
theorem storingInstructionsReportTheFirstFault : Obligations.StoringInstructionsReportTheFirstFault := by
  intro s i f a b dst hi
  have hfault : ∀ {c}, effectRRW f a b dst s = .error c → exec i s = .next (s.raise c) :=
    fun h => exec_of_fault ((effect_rrw hi s).trans h)
  exact ⟨
    fun x hx h => hfault (effectRRW_of_first f (State.resolveRead_of_neg 0 hx h)),
    fun x hx h => hfault (effectRRW_of_first f (State.resolveRead_of_overflow 0 hx h)),
    fun ha x hx h => hfault (effectRRW_of_second f ha (State.resolveRead_of_neg 1 hx h)),
    fun ha x hx h => hfault (effectRRW_of_second f ha (State.resolveRead_of_overflow 1 hx h)),
    fun ha hb h => hfault (effectRRW_of_dst f ha hb (State.resolveWrite_of_immediate 2 h)),
    fun ha hb x hx h => hfault (effectRRW_of_dst f ha hb (State.resolveWrite_of_neg 2 hx h)),
    fun ha hb x hx h => hfault (effectRRW_of_dst f ha hb (State.resolveWrite_of_overflow 2 hx h)),
    fun ha hb x hx h0 h1 hcap =>
      hfault (effectRRW_of_dst f ha hb (State.resolveWrite_of_capacity 2 hx h0 h1 hcap))⟩

/-- Settles O23: the destination's checks and then `seqNext`, all before INQ is looked at. -/
theorem inFaultsBeforeItBlocks : Obligations.InFaultsBeforeItBlocks := fun _ _ =>
  ⟨fun h => exec_of_fault (effectIn_of_dst (State.resolveWrite_of_immediate 0 h)),
    fun _ hx h => exec_of_fault (effectIn_of_dst (State.resolveWrite_of_neg 0 hx h)),
    fun _ hx h => exec_of_fault (effectIn_of_dst (State.resolveWrite_of_overflow 0 hx h)),
    fun _ hx h0 h1 hcap => exec_of_fault (effectIn_of_dst (State.resolveWrite_of_capacity 0 hx h0 h1 hcap)),
    fun _ hd hn => exec_of_fault (effectIn_of_not_continues hd hn)⟩

/-- Settles O24: the first operand's check, and for a jump the second's after it, before the condition is tested. -/
theorem readingInstructionsReportTheFirstFault : Obligations.ReadingInstructionsReportTheFirstFault := by
  intro s a b i hi
  refine ⟨fun x hx h => exec_of_fault (effect_of_first hi (State.resolveRead_of_neg 0 hx h)),
    fun x hx h => exec_of_fault (effect_of_first hi (State.resolveRead_of_overflow 0 hx h)), fun hj ha x hx => ?_⟩
  have hfault : ∀ {c}, s.resolveRead 1 b = .error c → exec i s = .next (s.raise c) := fun h => by
    obtain rfl | rfl := hj
    · exact exec_of_fault (effectJump_of_second nonZero ha h)
    · exact exec_of_fault (effectJump_of_second isZero ha h)
  exact ⟨fun h => hfault (State.resolveRead_of_neg 1 hx h), fun h => hfault (State.resolveRead_of_overflow 1 hx h)⟩

/-! ## The statements about each instruction -/

/-- Settles O12: ADD is format RRW with the wrapped sum. -/
theorem addStoresTheWrappedSum : Obligations.AddStoresTheWrappedSum :=
  fun _ _ _ _ _ => exec_rrw (f := addWords) rfl

/-- Settles O13: MUL is format RRW with the wrapped product. -/
theorem mulStoresTheWrappedProduct : Obligations.MulStoresTheWrappedProduct :=
  fun _ _ _ _ _ => exec_rrw (f := mulWords) rfl

/-- Settles O14: LT is format RRW with the signed comparison. -/
theorem ltStoresTheSignedComparison : Obligations.LtStoresTheSignedComparison := by
  intro s a b dst d ha hb hd hn
  have he := exec_rrw (i := .lt a b dst) rfl ha hb hd hn
  exact ⟨fun h => by rw [he, ltWord_of_lt h], fun h => by rw [he, ltWord_of_le h]⟩

/-- Settles O15: EQ is format RRW with the comparison of full words. -/
theorem eqStoresTheEquality : Obligations.EqStoresTheEquality := by
  intro s a b dst d ha hb hd hn
  have he := exec_rrw (i := .eq a b dst) rfl ha hb hd hn
  exact ⟨fun h => by rw [he, eqWord_of_eq h], fun h => by rw [he, eqWord_of_ne h]⟩

/-- Settles O16: the two cases of INQ. -/
theorem inTakesTheFrontOrBlocks : Obligations.InTakesTheFrontOrBlocks := fun _ _ _ hd hn =>
  ⟨fun _ _ hq => exec_inp_of_cons hq hd hn, fun hq => exec_inp_of_nil hq hd hn⟩

/-- Settles O17: the log has room, or OUT_CAP is reached. -/
theorem outAppendsItsValue : Obligations.OutAppendsItsValue := by
  intro s a ha hn
  refine ⟨fun hcap => exec_of_effect (effectOut_ok.2 ⟨ha, hn, ?_, rfl⟩),
    fun hcap => exec_of_fault (effectOut_of_full ha hn (State.outFull_iff.2 hcap))⟩
  exact Bool.eq_false_iff.2 fun hf => hcap (State.outFull_iff.1 hf)

/-- Settles O18: JT takes the target where its condition is not 0. -/
theorem jtJumpsOnNonZero : Obligations.JtJumpsOnNonZero := fun _ _ _ ha hb =>
  ⟨fun hx => exec_of_effect (effectJump_of_taken ha hb (nonZero_of_ne hx)),
    fun hx hn => exec_of_effect (effectJump_of_not_taken ha hb (nonZero_of_eq hx) hn)⟩

/-- Settles O19: JF takes the target where its condition is 0. -/
theorem jfJumpsOnZero : Obligations.JfJumpsOnZero := fun _ _ _ ha hb =>
  ⟨fun hx => exec_of_effect (effectJump_of_taken ha hb (isZero_of_eq hx)),
    fun hx hn => exec_of_effect (effectJump_of_not_taken ha hb (isZero_of_ne hx) hn)⟩

/-- Settles O20: the operand's value is read with the old RB, and the sum is stored wrapped. -/
theorem arbAddsToTheRelativeBase : Obligations.ArbAddsToTheRelativeBase := fun _ _ ha hn =>
  exec_of_effect (effectArb_ok.2 ⟨ha, hn, rfl⟩)

/-- Settles O21: HLT has no check. -/
theorem hltHalts : Obligations.HltHalts := fun _ => exec_of_effect rfl

/-- Settles O11: an exact sum of two words lies within 65 bits, and below 0 the resolver reports it as it is. -/
theorem relativeSumsNeverWrap : Obligations.RelativeSumsNeverWrap := by
  intro s k r
  have hrb := min_le_toInt s.rb
  have hrb' := toInt_le_max s.rb
  have hr := min_le_toInt r
  have hr' := toInt_le_max r
  simp only [int64Min, int64Max] at hrb hrb' hr hr'
  refine ⟨s.effAddr_position r, toInt_le_max r, s.effAddr_relative r, by omega, by omega, fun hlow => ?_⟩
  have hneg : s.rb.toInt + r.toInt < 0 := by
    simp only [int64Min] at hlow
    omega
  exact ⟨State.resolveRead_of_neg k (s.effAddr_relative r) hneg,
    State.resolveWrite_of_neg k (s.effAddr_relative r) hneg⟩

end Sys2Proof
end

section
/-! What each instruction leaves unchanged (spec/40_execution_cycle.md, R136; spec/10_state.md, R34, R35, R45): each frame from
the effect's own equation, and what an instruction without RB does whatever RB holds. -/

namespace Sys2Proof

/-- R96: the instructions of format RRW have four words. -/
theorem Instr.length_of_rrw {i : Instr} {f : Word → Word → Word} {a b dst : Operand}
    (h : i.rrw = some (f, a, b, dst)) : i.length = 4 := by
  cases i with
  | add _ _ _ => rfl
  | mul _ _ _ => rfl
  | lt _ _ _ => rfl
  | eq _ _ _ => rfl
  | inp _ => cases h
  | out _ => cases h
  | jt _ _ => cases h
  | jf _ _ => cases h
  | arb _ => cases h
  | hlt => cases h

namespace Machine

variable {s t : State}

/-! ## What the effects leave alone -/

theorem State.sameBlock_refl (s : State) : s.sameBlock s := ⟨rfl, rfl, rfl, rfl, rfl, rfl, rfl, rfl, rfl⟩

theorem effect_sameBlock {i : Instr} (h : effect i s = .ok t) : s.sameBlock t := by
  obtain ⟨f, a, b, dst, d, -, -, -, rfl⟩ | ⟨dst, -, -, rfl⟩ | ⟨dst, d, x, xs, -, -, -, -, rfl⟩ |
    ⟨a, -, -, -, rfl⟩ | ⟨a, b, -, -, rfl | ⟨-, rfl⟩⟩ | ⟨a, v, -, -, rfl⟩ | ⟨-, rfl⟩ := effect_cases h
  all_goals exact s.sameBlock_refl

theorem exec_sameBlock {i : Instr} (h : exec i s = .next t) : s.sameBlock t := by
  obtain h | ⟨c, -, -, rfl⟩ := exec_next h
  · exact effect_sameBlock h
  · exact s.raise_sameBlock c

/-- R198: a jump whose checks pass sets IP and does nothing else. -/
theorem effectJump_setIp {taken : Word → Bool} {a b : Operand} (h : effectJump taken a b s = .ok t) :
    ∃ v, t = s.setIp v := by
  obtain ⟨-, -, ⟨-, rfl⟩ | ⟨-, -, rfl⟩⟩ := effectJump_ok.1 h
  · exact ⟨_, rfl⟩
  · exact ⟨_, rfl⟩

/-- R70: a store at a writable operand leaves every word but the one at its effective address. -/
theorem State.read_store_other {o : Operand} {d x : Nat} (hd : s.writableAt o d) (v : Word)
    (hx : s.effAddr o ≠ some (x : Int)) : (s.mem.write d v).read x = s.mem.read x := by
  refine Memory.read_write_other v fun hxd => hx ?_
  rw [hd.1, hxd]

/-! ## Another RB -/

section
variable {o : Operand} (h : o.mode ≠ .relative) (r : Word)
include h

/-- R35: only a Relative operand's address reads RB. -/
theorem State.effAddr_setRb : (s.setRb r).effAddr o = s.effAddr o := by
  obtain ⟨mode, raw⟩ := o
  cases mode with
  | position => rfl
  | immediate => rfl
  | relative => exact absurd rfl h

theorem State.resolveRead_setRb (k : Fin 3) : (s.setRb r).resolveRead k o = s.resolveRead k o := by
  rw [State.resolveRead, State.resolveRead, State.effAddr_setRb h, State.setRb_mem]

theorem State.resolveWrite_setRb (k : Fin 3) : (s.setRb r).resolveWrite k o = s.resolveWrite k o := by
  rw [State.resolveWrite, State.resolveWrite, State.effAddr_setRb h, State.setRb_params]

end

theorem State.seqNext_setRb (s : State) (r : Word) (len : Nat) : (s.setRb r).seqNext len = s.seqNext len := rfl

section
variable {a b dst : Operand} (r : Word)

theorem effectRRW_setRb (f : Word → Word → Word) (ha : a.mode ≠ .relative) (hb : b.mode ≠ .relative)
    (hd : dst.mode ≠ .relative) :
    effectRRW f a b dst (s.setRb r) = (State.setRb · r) <$> effectRRW f a b dst s := by
  simp only [effectRRW, State.resolveRead_setRb ha, State.resolveRead_setRb hb, State.resolveWrite_setRb hd,
    State.seqNext_setRb, map_bind, map_pure]
  rfl

theorem effectIn_setRb (hd : dst.mode ≠ .relative) :
    effectIn dst (s.setRb r) = (State.setRb · r) <$> effectIn dst s := by
  simp only [effectIn, State.resolveWrite_setRb hd, State.seqNext_setRb, map_bind, State.setRb_inq]
  cases s.inq with
  | nil => rfl
  | cons x xs => rfl

theorem effectOut_setRb (ha : a.mode ≠ .relative) :
    effectOut a (s.setRb r) = (State.setRb · r) <$> effectOut a s := by
  have hfull : (s.setRb r).outFull = s.outFull := rfl
  simp only [effectOut, State.resolveRead_setRb ha, State.seqNext_setRb, map_bind, hfull]
  cases s.outFull with
  | true => rfl
  | false => rfl

theorem effectJump_setRb (taken : Word → Bool) (ha : a.mode ≠ .relative) (hb : b.mode ≠ .relative) :
    effectJump taken a b (s.setRb r) = (State.setRb · r) <$> effectJump taken a b s := by
  simp only [effectJump, State.resolveRead_setRb ha, State.resolveRead_setRb hb, State.seqNext_setRb, map_bind,
    apply_ite ((State.setRb · r) <$> ·), map_pure]
  rfl

end

/-- R35: an instruction that is no ARB and has no Relative operand does the same whatever word RB holds. -/
theorem effect_setRb {i : Instr} (hops : ∀ o ∈ i.operands, o.mode ≠ .relative) (harb : ∀ a, i ≠ .arb a) (r : Word) :
    effect i (s.setRb r) = (State.setRb · r) <$> effect i s := by
  have hrrw : ∀ {f a b dst}, i.operands = [a, b, dst] →
      effectRRW f a b dst (s.setRb r) = (State.setRb · r) <$> effectRRW f a b dst s := fun e =>
    effectRRW_setRb r _ (hops _ (by simp [e])) (hops _ (by simp [e])) (hops _ (by simp [e]))
  have hjump : ∀ {taken a b}, i.operands = [a, b] →
      effectJump taken a b (s.setRb r) = (State.setRb · r) <$> effectJump taken a b s := fun e =>
    effectJump_setRb r _ (hops _ (by simp [e])) (hops _ (by simp [e]))
  cases i with
  | add a b dst => exact hrrw rfl
  | mul a b dst => exact hrrw rfl
  | inp dst => exact effectIn_setRb r (hops dst List.mem_cons_self)
  | out a => exact effectOut_setRb r (hops a List.mem_cons_self)
  | jt a b => exact hjump rfl
  | jf a b => exact hjump rfl
  | lt a b dst => exact hrrw rfl
  | eq a b dst => exact hrrw rfl
  | arb a => exact absurd rfl (harb a)
  | hlt => rfl

theorem exec_setRb {i : Instr} (hops : ∀ o ∈ i.operands, o.mode ≠ .relative) (harb : ∀ a, i ≠ .arb a) (r : Word)
    (h : exec i s = .next t) : exec i (s.setRb r) = .next (t.setRb r) := by
  obtain ht | ⟨c, hc, -, rfl⟩ := exec_next h
  · exact exec_of_effect (by rw [effect_setRb hops harb, ht]; rfl)
  · exact exec_of_fault (by rw [effect_setRb hops harb, hc]; rfl)

end Machine

open Machine

/-! ## The frames -/

/-- Settles O25: the effect of format RRW is one store and the move of IP. -/
theorem frameOfTheStoringInstructions : Obligations.FrameOfTheStoringInstructions := by
  intro s t i f a b dst hi h
  refine ⟨exec_sameBlock h, ?_⟩
  obtain h | ⟨c, -, -, rfl⟩ := exec_next h
  · rw [effect_rrw hi] at h
    obtain ⟨-, -, -, d, hd, rfl⟩ := effectRRW_ok.1 h
    exact ⟨rfl, rfl, rfl, .inl ⟨rfl, rfl⟩, fun x => State.read_store_other hd _⟩
  · exact ⟨rfl, rfl, rfl, .inr ⟨c, rfl⟩, fun _ _ => rfl⟩

/-- Settles O26: IN takes a word and stores it, or blocks, or takes the fault action. -/
theorem frameOfIn : Obligations.FrameOfIn := by
  intro s t dst h
  refine ⟨exec_sameBlock h, ?_⟩
  obtain h | ⟨c, -, -, rfl⟩ := exec_next h
  · obtain ⟨-, d, hd, ⟨-, rfl⟩ | ⟨x, xs, hq, rfl⟩⟩ := effectIn_ok.1 h
    · exact ⟨rfl, rfl, fun _ _ => rfl, .inr (.inl rfl)⟩
    · exact ⟨rfl, rfl, fun y => State.read_store_other hd _, .inl ⟨rfl, rfl, x, hq⟩⟩
  · exact ⟨rfl, rfl, fun _ _ => rfl, .inr (.inr ⟨c, rfl⟩)⟩

/-- Settles O27: the effect of OUT is one word appended and the move of IP. -/
theorem frameOfOut : Obligations.FrameOfOut := by
  intro s t a h
  refine ⟨exec_sameBlock h, ?_⟩
  obtain h | ⟨c, -, -, rfl⟩ := exec_next h
  · obtain ⟨-, -, -, rfl⟩ := effectOut_ok.1 h
    exact ⟨rfl, rfl, fun _ => rfl, .inl ⟨rfl, rfl, _, rfl⟩⟩
  · exact ⟨rfl, rfl, fun _ => rfl, .inr ⟨c, rfl⟩⟩

/-- Settles O28: the effect of a jump is a move of IP. -/
theorem frameOfTheJumps : Obligations.FrameOfTheJumps := by
  intro s t a b i hi h
  refine ⟨exec_sameBlock h, ?_⟩
  obtain h | ⟨c, -, -, rfl⟩ := exec_next h
  · obtain ⟨v, rfl⟩ : ∃ v, t = s.setIp v := by
      obtain rfl | rfl := hi
      · exact effectJump_setIp h
      · exact effectJump_setIp h
    exact ⟨rfl, rfl, rfl, fun _ => rfl, .inl ⟨rfl, rfl⟩⟩
  · exact ⟨rfl, rfl, rfl, fun _ => rfl, .inr ⟨c, rfl⟩⟩

/-- Settles O29: the effect of ARB moves RB and IP; HLT's sets STATUS. -/
theorem frameOfArbAndHlt : Obligations.FrameOfArbAndHlt := by
  intro s t
  refine ⟨fun a h => ⟨exec_sameBlock h, ?_⟩, fun h => ⟨exec_sameBlock h, ?_⟩⟩
  · obtain h | ⟨c, -, -, rfl⟩ := exec_next h
    · obtain ⟨-, -, rfl⟩ := effectArb_ok.1 h
      exact ⟨rfl, rfl, fun _ => rfl, .inl ⟨rfl, rfl⟩⟩
    · exact ⟨rfl, rfl, fun _ => rfl, .inr ⟨c, rfl⟩⟩
  · cases h
    exact ⟨rfl, rfl, rfl, rfl, rfl, fun _ => rfl⟩

/-! ## RB and IP -/

/-- Settles O30: of the effects ARB's alone moves RB, and the others commute with a change of RB. -/
theorem relativeBaseIsReadAndWrittenByFew : Obligations.RelativeBaseIsReadAndWrittenByFew := by
  refine ⟨fun s t hb hr hst hrb => ?_, fun i s t r hops harb => exec_setRb hops harb r⟩
  rw [step_running hb hr] at hst
  obtain ⟨i, hi, he⟩ | ⟨c, -, rfl⟩ := State.engineStep_next hst
  · obtain ⟨f, a, b, dst, d, -, -, -, rfl⟩ | ⟨dst, -, -, rfl⟩ | ⟨dst, d, x, xs, -, -, -, -, rfl⟩ |
      ⟨a, -, -, -, rfl⟩ | ⟨a, b, -, -, rfl | ⟨-, rfl⟩⟩ | ⟨a, v, rfl, -, rfl⟩ | ⟨-, rfl⟩ := effect_cases he
    case inr.inr.inr.inr.inr.inl => exact ⟨a, hi⟩
    all_goals exact absurd rfl hrb
  · exact absurd rfl hrb

/-- Settles O36: each effect leaves IP, moves it by the instruction's length, or sets it to a jump's target. -/
theorem instructionPointerNeverWraps : Obligations.InstructionPointerNeverWraps := by
  intro i s t h
  obtain h | ⟨c, -, -, rfl⟩ := exec_next h
  · have hnext : ∀ {len : Nat}, s.continues len → i.length = len →
        (wrap64 (s.ip.toInt + len)).toInt = s.ip.toInt + i.length := fun hn e => by
      rw [State.toInt_next hn, e]
    obtain ⟨f, a, b, dst, d, hi, -, hn, rfl⟩ | ⟨dst, -, -, rfl⟩ | ⟨dst, d, x, xs, rfl, -, -, hn, rfl⟩ |
      ⟨a, rfl, hn, -, rfl⟩ | ⟨a, b, hi, hb, rfl | ⟨hn, rfl⟩⟩ | ⟨a, v, rfl, hn, rfl⟩ | ⟨-, rfl⟩ := effect_cases h
    · exact .inr (.inl (hnext hn (Instr.length_of_rrw hi)))
    · exact .inl rfl
    · exact .inr (.inl (hnext hn rfl))
    · exact .inr (.inl (hnext hn rfl))
    · exact .inr (.inr ⟨a, b, hi, hb, rfl⟩)
    · exact .inr (.inl (hnext hn (by obtain rfl | rfl := hi <;> rfl)))
    · exact .inr (.inl (hnext hn rfl))
    · exact .inl rfl
  · exact .inl rfl

end Sys2Proof
end

section
/-! What a step and a command can do to each core of the block (spec/10_state.md, R38, R40, R41; spec/46_halt.md, R251), from
`step_core` and `State.command_core`. -/

namespace Sys2Proof.Machine

/-! ## What an effect does to STATUS and the queues -/

section
variable {i : Instr} {s t : State} (h : effect i s = .ok t)
include h

theorem effect_status : t.status = s.status ∨ (t.status = .halted ∧ i = .hlt) ∨
    (t.status = .waitingForInput ∧ s.inq = [] ∧ ∃ dst, i = .inp dst) := by
  obtain ⟨f, a, b, dst, d, -, -, -, rfl⟩ | ⟨dst, rfl, hq, rfl⟩ | ⟨dst, d, x, xs, -, -, -, -, rfl⟩ |
    ⟨a, -, -, -, rfl⟩ | ⟨a, b, -, -, rfl | ⟨-, rfl⟩⟩ | ⟨a, v, -, -, rfl⟩ | ⟨rfl, rfl⟩ := effect_cases h
  case inr.inl => exact .inr (.inr ⟨rfl, hq, dst, rfl⟩)
  case inr.inr.inr.inr.inr.inr => exact .inr (.inl ⟨rfl, rfl⟩)
  all_goals exact .inl rfl

theorem effect_outLog : t.outLog = s.outLog ∨ ∃ a, i = .out a ∧ t.outLog = s.outLog ++ [s.value a] := by
  obtain ⟨f, a, b, dst, d, -, -, -, rfl⟩ | ⟨dst, -, -, rfl⟩ | ⟨dst, d, x, xs, -, -, -, -, rfl⟩ |
    ⟨a, rfl, -, -, rfl⟩ | ⟨a, b, -, -, rfl | ⟨-, rfl⟩⟩ | ⟨a, v, -, -, rfl⟩ | ⟨-, rfl⟩ := effect_cases h
  case inr.inr.inr.inl => exact .inr ⟨a, rfl, rfl⟩
  all_goals exact .inl rfl

theorem effect_inq : t.inq = s.inq ∨ ∃ x dst, i = .inp dst ∧ s.inq = x :: t.inq := by
  obtain ⟨f, a, b, dst, d, -, -, -, rfl⟩ | ⟨dst, -, -, rfl⟩ | ⟨dst, d, x, xs, rfl, hq, -, -, rfl⟩ |
    ⟨a, -, -, -, rfl⟩ | ⟨a, b, -, -, rfl | ⟨-, rfl⟩⟩ | ⟨a, v, -, -, rfl⟩ | ⟨-, rfl⟩ := effect_cases h
  case inr.inr.inl => exact .inr ⟨x, dst, rfl, hq⟩
  all_goals exact .inl rfl

end

/-! ## What a command's work does to its core -/

theorem CoreState.buffered_eq_nil {k : CoreState} (h : k.outLog[k.outCur]? = none) : k.buffered = [] :=
  List.drop_eq_nil_of_le (List.getElem?_eq_none_iff.1 h)

/-- R333 to R337: a command moves INQ and OUTCUR alone, or it is one of the two that fault, and faults. -/
theorem HostCmd.act_core (c : HostCmd) (p : Params) (k : CoreState) :
    (∃ q n, (c.act p k).2 = { k with inq := q, outCur := n }) ∨
      (∃ f, (c.act p k).2 = k.raise f) ∧
        (c = .takeOutput ∧ k.buffered = [] ∨ ∃ a : Word, c = .memoryAt a ∧ a.toInt < 0) := by
  cases c with
  | run => exact .inl ⟨k.inq, k.outCur, rfl⟩
  | feed vs =>
    obtain ⟨-, e⟩ | ⟨-, e⟩ := k.hostFeed_cases p vs
    · exact .inl ⟨k.inq ++ vs, k.outCur, congrArg Prod.snd e⟩
    · exact .inl ⟨k.inq, k.outCur, congrArg Prod.snd e⟩
  | takeOutput =>
    cases hx : k.outLog[k.outCur]? with
    | some x => exact .inl ⟨k.inq, k.outCur + 1, congrArg Prod.snd (CoreState.takeOutput_of_some hx)⟩
    | none =>
      exact .inr ⟨⟨_, congrArg Prod.snd (CoreState.takeOutput_of_none hx)⟩,
        .inl ⟨rfl, CoreState.buffered_eq_nil hx⟩⟩
  | outputs => exact .inl ⟨k.inq, k.outCur, rfl⟩
  | memoryAt a =>
    obtain ha | ha := lt_or_ge a.toInt 0
    · exact .inr ⟨⟨_, congrArg Prod.snd (CoreState.memoryAt_of_neg ha)⟩, .inr ⟨a, rfl, ha⟩⟩
    · exact .inl ⟨k.inq, k.outCur, congrArg Prod.snd (CoreState.memoryAt_of_nonneg ha)⟩
  | drain => exact .inl ⟨k.inq, k.outLog.length, rfl⟩

theorem HostCmd.act_outLog (c : HostCmd) (p : Params) (k : CoreState) : (c.act p k).2.outLog = k.outLog := by
  obtain ⟨q, n, e⟩ | ⟨⟨f, e⟩, -⟩ := c.act_core p k <;> rw [e]
  rfl

/-- R37, R140: a core whose run does not return at once is Running or waits. -/
theorem Status.running_or_waiting {v : Status} (h : ¬ (v = .halted ∨ v = .faulted)) :
    v = .running ∨ v = .waitingForInput := by
  cases v <;> simp at h ⊢

end Sys2Proof.Machine

namespace Sys2Proof

open Machine

/-! ## The statements -/

/-- Settles O31: HLT, IN and the fault action set STATUS in an instruction's step, the scheduler at the start of a run. -/
theorem stepChangesStatusByTheTable : Obligations.StepChangesStatusByTheTable := by
  intro s t j k k' hst hk hk'
  obtain ⟨k'', h, hcase⟩ := step_core hst hk
  cases hk'.symm.trans h
  obtain ⟨hj, hb, hr, rfl, rfl, he⟩ | ⟨k1, ⟨vs, n, rfl⟩, -, b, rfl⟩ | ⟨hj, hb, hs, hnot, rfl⟩ := hcase
  · obtain ⟨i, hi, he⟩ | ⟨c, -, rfl⟩ := State.engineStep_next he
    · obtain h | ⟨h, rfl⟩ | ⟨h, hq, dst, rfl⟩ := effect_status he
      · exact .inl h
      · exact .inr (.inl ⟨hj, hb, hr, .inl ⟨h, hi⟩⟩)
      · exact .inr (.inl ⟨hj, hb, hr, .inr (.inl ⟨h, hq, dst, hi⟩)⟩)
    · exact .inr (.inl ⟨hj, hb, hr, .inr (.inr ⟨rfl, c, rfl⟩)⟩)
  · exact .inl rfl
  · obtain h | h := Status.running_or_waiting hnot
    · exact .inl h.symm
    · exact .inr (.inr ⟨hj, hb, hs, h, rfl⟩)

/-- Settles O32: a command moves queues only, faults as its own rule says, or is `run`. -/
theorem commandChangesStatusByTheTable : Obligations.CommandChangesStatusByTheTable := by
  intro s i j c k k' hk hk'
  obtain rfl | ⟨hj, hc, hnot, rfl⟩ | ⟨hj, -, -, rfl⟩ := State.command_core hk hk'
  · exact .inl rfl
  · obtain h | h := Status.running_or_waiting hnot
    · exact .inl h.symm
    · exact .inr (.inl ⟨hj, hc, h, rfl⟩)
  · obtain ⟨q, n, e⟩ | ⟨⟨f, e⟩, hcause⟩ := c.act_core s.params k
    · exact .inl (by rw [e])
    · exact .inr (.inr ⟨hj, by rw [e]; rfl, hcause⟩)

/-- Settles O33: such a core is neither the running core nor one whose run starts, so a step moves its queues at most. -/
theorem haltedAndFaultedCoresStayPut : Obligations.HaltedAndFaultedCoresStayPut := by
  intro s t j k hst hk hstop
  obtain ⟨k', h, ⟨-, -, hr, rfl, -, -⟩ | ⟨k1, ⟨vs, n, rfl⟩, -, b, rfl⟩ | ⟨-, -, -, hnot, -⟩⟩ := step_core hst hk
  · simp [hr] at hstop
  · exact ⟨_, h, rfl, rfl, rfl, rfl, rfl, rfl⟩
  · exact absurd hstop hnot

/-- Settles O37: of the effects OUT's alone appends, and no command and no transfer touches a log. -/
theorem outputLogOnlyGrowsByOut : Obligations.OutputLogOnlyGrowsByOut := by
  refine ⟨fun s t j k k' hst hk hk' => ?_, fun s i j c k k' hk hk' => ?_⟩
  · obtain ⟨k'', h, hcase⟩ := step_core hst hk
    cases hk'.symm.trans h
    obtain ⟨hj, hb, hr, rfl, rfl, he⟩ | ⟨k1, ⟨vs, n, rfl⟩, -, b, rfl⟩ | ⟨-, -, -, -, rfl⟩ := hcase
    · obtain ⟨i, hi, he⟩ | ⟨c, -, rfl⟩ := State.engineStep_next he
      · obtain h | ⟨a, rfl, h⟩ := effect_outLog he
        · exact .inl h
        · exact .inr ⟨hj, hb, hr, a, hi, h⟩
      · exact .inl rfl
    · exact .inl rfl
    · exact .inl rfl
  · obtain rfl | ⟨-, -, -, rfl⟩ | ⟨-, -, -, rfl⟩ := State.command_core hk hk'
    · rfl
    · rfl
    · exact c.act_outLog s.params k

/-- Settles O38: of the effects IN's alone takes a word, and the scheduler's transfer alone appends. -/
theorem inputQueueIsFirstInFirstOut : Obligations.InputQueueIsFirstInFirstOut := by
  intro s t j k k' hst hk hk'
  obtain ⟨k'', h, hcase⟩ := step_core hst hk
  cases hk'.symm.trans h
  obtain ⟨hj, hb, hr, rfl, rfl, he⟩ | ⟨k1, ⟨vs, n, rfl⟩, hs, b, rfl⟩ | ⟨-, -, -, -, rfl⟩ := hcase
  · obtain ⟨i, hi, he⟩ | ⟨c, -, rfl⟩ := State.engineStep_next he
    · obtain h | ⟨x, dst, rfl, h⟩ := effect_inq he
      · exact .inl h
      · exact .inr (.inl ⟨hj, hb, hr, x, dst, hi, h⟩)
    · exact .inl rfl
  · obtain hs | hs := hs
    · exact .inr (.inr ⟨hs, vs, rfl⟩)
    · exact .inl (show k.inq ++ vs = k.inq from congrArg CoreState.inq hs)
  · exact .inl rfl

end Sys2Proof
end

section
/-! Memory as data (spec/10_state.md, R31), its two primitives (spec/20_memory.md, R62, R63, R70), and a store that the next
fetch reads (R73, R74). -/

namespace Sys2Proof.Machine

/-! ## The canonical form -/

/-- The order of the cells of a memory in canonical form. -/
def Cell.before (c d : Cell) : Prop := c.1 < d.1

theorem Memory.pairwise_of_wf {m : Memory} (h : m.wf = true) : m.Pairwise Cell.before := by
  induction m with
  | nil => exact .nil
  | cons c m ih =>
    obtain ⟨-, hlt, hwf⟩ := Memory.wf_cons.1 h
    exact .cons hlt (ih hwf)

/-! ## The primitives -/

section
variable {s : State} {a : Int}

theorem State.memRead_of_neg (h : a < 0) :
    s.memRead a = .error { reason := .negativeAddress, addr := some a, operand := none } :=
  if_pos h

theorem State.memWrite_of_neg (v : Word) (h : a < 0) :
    s.memWrite a v = .error { reason := .negativeAddress, addr := some a, operand := none } :=
  if_pos h

theorem State.memRead_of_overflow (h : addrMax < a) :
    s.memRead a = .error { reason := .addressOverflow, addr := some a, operand := none } := by
  rw [State.memRead, if_neg (not_lt.2 (nonneg_of_addrMax_lt h)), if_pos h]

theorem State.memWrite_of_capacity (v : Word) (h0 : 0 ≤ a) (h : (s.params.memLimit : Int) ≤ a) :
    s.memWrite a v = .error { reason := .capacityExceeded, addr := some a, operand := none } := by
  rw [State.memWrite, if_neg (not_lt.2 h0), if_pos h]

theorem State.memWrite_of_inRange (v : Word) (h0 : 0 ≤ a) (h : a < s.params.memLimit) :
    s.memWrite a v = .ok (s.storeWord a.toNat v) := by
  rw [State.memWrite, if_neg (not_lt.2 h0), if_neg (not_le.2 h)]

end

/-- R70, R73: the next fetch at the address just stored to gives the word stored. -/
theorem State.memRead_of_stored {s t : State} {o : Operand} {d : Nat} {v : Word} (hm : s.mem.wf = true)
    (hd : s.writableAt o d) (hip : t.ip.toInt = d) (hmem : t.mem = s.mem.write d v) :
    t.memRead t.ip.toInt = .ok v := by
  obtain ⟨-, hmax, -⟩ := hd
  refine State.memRead_ok.2 ⟨⟨by omega, by omega⟩, ?_⟩
  rw [hip, hmem, Int.toNat_natCast, Memory.read_write_same hm]

end Sys2Proof.Machine

namespace Sys2Proof

open Machine

/-! ## The statements -/

/-- Settles O46: canonical memories that read alike list the same cells, and each lists them in the order of addresses. -/
theorem canonicalMemoriesThatReadAlikeAreEqual : Obligations.CanonicalMemoriesThatReadAlikeAreEqual := by
  intro m m' hm hm' hread
  have : Std.Irrefl Cell.before := ⟨fun c => Nat.lt_irrefl c.1⟩
  have : Std.Antisymm Cell.before := ⟨fun _ _ h h' => absurd h (Nat.lt_asymm h')⟩
  refine (Memory.pairwise_of_wf hm).eq_of_mem_iff (Memory.pairwise_of_wf hm') fun c => ?_
  rw [Memory.mem_iff_read hm, Memory.mem_iff_read hm', hread]

/-- Settles O47, one lemma of a primitive for each range of the address. -/
theorem memoryPrimitives : Obligations.MemoryPrimitives := by
  intro s a v
  refine ⟨fun h => ⟨State.memRead_of_neg h, State.memWrite_of_neg v h⟩, State.memRead_of_overflow,
    fun h0 h1 => State.memRead_ok.2 ⟨⟨h0, h1⟩, rfl⟩, State.memWrite_of_capacity v, fun h0 h hm => ?_,
    fun k o d h => State.memWrite_of_resolveWrite h v⟩
  exact ⟨_, State.memWrite_of_inRange v h0 h, Memory.write_wf hm _ v, Memory.read_write_same hm _ v,
    fun b hb => Memory.read_write_other v hb, rfl⟩

/-- Settles O48: the instruction completes with IP at the address it has stored to. -/
theorem theNextFetchSeesTheStore : Obligations.TheNextFetchSeesTheStore := by
  refine ⟨fun s i f a b dst d hm hi ha hb hd hn hnext => ⟨_, exec_rrw hi ha hb hd hn, ?_⟩,
    fun s dst d x xs hm hq hd hn hnext => ⟨_, exec_inp_of_cons hq hd hn, ?_⟩⟩
  · exact State.memRead_of_stored hm hd ((State.toInt_next hn).trans hnext.symm) rfl
  · exact State.memRead_of_stored hm hd ((State.toInt_next hn).trans hnext.symm) rfl

end Sys2Proof
end

section
/-! The run loop (spec/40_execution_cycle.md, R140, R141), a core that waits and is fed (spec/42_io.md, R181), and jumps from one
step to the next (spec/43_jumps.md, R198, R199). -/

namespace Sys2Proof.Machine

/-! ## The core in front of the engine -/

theorem State.setCore_front (s : State) (k : CoreState) :
    s.setCore s.before.length k = { s with toCoreState := k } := by
  simp [State.setCore]

theorem State.focus_front (s : State) : s.focus s.before.length = some s := by
  simp [State.focus, State.cores]

/-- R140: `run()` at its start makes the core Running and BUSY. -/
def CoreState.started (k : CoreState) : CoreState := { k with status := .running, busy := true }

/-- R140: the state after the start of a run, as its front core stored back. -/
theorem State.started_eq_setCore (s : State) :
    (s.setStatus .running).setBusy true = s.setCore s.before.length s.toCoreState.started :=
  (s.setCore_front _).symm

theorem State.setStatus_setBusy_self {s : State} {v : Status} {b : Bool} (hv : s.status = v) (hb : s.busy = b) :
    (s.setStatus v).setBusy b = s := by
  subst hv hb
  rfl

theorem State.setIp_self {s : State} {v : Word} (h : v = s.ip) : s.setIp v = s := by
  subst h
  rfl

/-! ## The start and the return of a run -/

section
variable {s : State} {i : Nat} {k : CoreState} (h : s.coreAt i = some k) (hb : s.busy = false)
  (hs : s.scheduling = false) (hk : k.busy = false)
include h hb hs hk

theorem State.command_run_of_settled (hst : k.status = .halted ∨ k.status = .faulted) :
    s.command i .run = (.returned k.status k.fault, s) := by
  obtain ⟨-, hbusy⟩ | ⟨-, -, -, ⟨-, e⟩ | ⟨hnot, -⟩⟩ := State.command_run_cases h
  · simp [hb, hs, hk] at hbusy
  · exact e
  · exact absurd hst hnot

theorem State.command_run_of_ready (hst : k.status = .running ∨ k.status = .waitingForInput) :
    ∃ t, s.focus i = some t ∧ s.command i .run = (.started, (t.setStatus .running).setBusy true) := by
  obtain ⟨-, hbusy⟩ | ⟨-, -, -, ⟨hset, -⟩ | ⟨-, t, ht, e⟩⟩ := State.command_run_cases h
  · simp [hb, hs, hk] at hbusy
  · obtain e | e := hst <;> simp [e] at hset
  · exact ⟨t, ht, e⟩

end

/-- R140: `run` on a waiting core that stands in front of the engine already. -/
theorem State.command_run_front {s : State} (hb : s.busy = false) (hs : s.scheduling = false)
    (hst : s.status = .waitingForInput) :
    s.command s.before.length .run = (.started, (s.setStatus .running).setBusy true) := by
  obtain ⟨t, ht, e⟩ := State.command_run_of_ready s.coreAt_front hb hs hb (.inr hst)
  cases s.focus_front.symm.trans ht
  exact e

theorem State.runReturn_of_host {s : State} (hs : s.scheduling = false) : s.runReturn = s.setBusy false := by
  simp [State.runReturn, hs]

/-- R333: a feed within IN_CAP of the core in front of the engine. -/
theorem State.command_feed_front {s : State} {vs : List Word} (hb : s.busy = false)
    (hw : withinCap s.params.inCap (s.inq.length + vs.length) = true) :
    s.command s.before.length (.feed vs) = (.ok, s.setInq (s.inq ++ vs)) := by
  obtain ⟨-, e⟩ | ⟨hfull, -⟩ := s.toCoreState.hostFeed_cases s.params vs
  · rw [State.command_of_act (c := .feed vs) s.coreAt_front hb HostCmd.noConfusion e, State.setCore_front]
    rfl
  · exact absurd (hw.symm.trans hfull) (by decide)

/-! ## The step of a running core -/

/-- R130: the step of a running core is the meaning of the instruction it fetches. -/
theorem step_of_fetch {s : State} {i : Instr} (hb : s.busy = true) (hr : s.status = .running)
    (hf : s.fetch = .ok i) : step s = exec i s := by
  rw [step_running hb hr, State.engineStep, hf]

/-- R140: a run starts with the instruction that its core fetches as it stands. -/
theorem step_started {s : State} {i : Instr} (hf : s.fetch = .ok i) :
    step ((s.setStatus .running).setBusy true) = exec i ((s.setStatus .running).setBusy true) :=
  step_of_fetch rfl rfl hf

/-- R200, R205: a taken jump's meaning. -/
theorem exec_of_taken {s : State} {i : Instr} {a b : Operand} (ha : s.readable a) (hb : s.readable b)
    (hi : i = .jt a b ∧ s.value a ≠ 0 ∨ i = .jf a b ∧ s.value a = 0) :
    exec i s = .next (s.setIp (s.value b)) := by
  obtain ⟨rfl, hx⟩ | ⟨rfl, hx⟩ := hi
  · exact exec_of_effect (effectJump_of_taken ha hb (nonZero_of_ne hx))
  · exact exec_of_effect (effectJump_of_taken ha hb (isZero_of_eq hx))

end Sys2Proof.Machine

namespace Sys2Proof

open Machine

/-! ## The statements -/

/-- Settles O49: the start puts the core in front of the engine and stores it back Running and BUSY. -/
theorem runLoop : Obligations.RunLoop := by
  refine ⟨fun s i k h hb hs hk => ⟨State.command_run_of_settled h hb hs hk, fun hst => ?_⟩,
    fun s hb => ⟨step_running hb, fun hr hs => ?_⟩⟩
  · obtain ⟨t, ht, e⟩ := State.command_run_of_ready h hb hs hk hst
    obtain ⟨hc, hi, hlen, hp, hcur, hruns, hn, hts⟩ := State.focus_some ht
    cases h.symm.trans hi
    refine ⟨_, e, rfl, hlen, ?_, hp, hcur, hruns, hn, hts.trans hs, fun hfront => ?_⟩
    · rw [State.started_eq_setCore, State.cores_setCore, State.cores_setCore, hc, hlen]
      rfl
    · subst hfront
      cases s.focus_front.symm.trans ht
      rfl
  · rw [step_returning hb hr, State.runReturn_of_host hs]
    rfl

/-- Settles O50: the IN fetched again blocks again, and what the start has set the block and the return set back. -/
theorem aWaitingCoreBlocksAgain : Obligations.AWaitingCoreBlocksAgain := by
  intro s dst d hb hs hst hq hf hd hn
  refine ⟨⟨_, ((s.setStatus .running).setBusy true).setStatus .waitingForInput,
    State.command_run_front hb hs hst, ?_, ?_⟩, fun vs => ?_⟩
  · rw [step_started hf]
    exact exec_inp_of_nil hq hd hn
  · rw [step_returning rfl (by simp), State.runReturn_of_host (by simpa using hs)]
    exact congrArg _ (State.setStatus_setBusy_self hst hb)
  · rw [State.command_served s.coreAt_front HostCmd.noConfusion hb, State.setCore_front]
    obtain ⟨-, e⟩ | ⟨-, e⟩ := s.toCoreState.hostFeed_cases s.params vs
    · simp only [HostCmd.act, e]
      exact ⟨hst, hb⟩
    · simp only [HostCmd.act, e]
      exact ⟨hst, hb⟩

/-- Settles O51: the run fetches the same IN, whose INQ now holds the words fed. -/
theorem aFedCoreResumes : Obligations.AFedCoreResumes := by
  intro s dst d x xs hb hs hst hq hf hd hn hw
  have hfeed : s.command s.before.length (.feed (x :: xs)) = (.ok, s.setInq (x :: xs)) := by
    rw [State.command_feed_front hb (by simpa [hq] using hw), hq, List.nil_append]
  have hrun := State.command_run_front (s := s.setInq (x :: xs)) hb hs hst
  have hexec := exec_inp_of_cons (s := ((s.setInq (x :: xs)).setStatus .running).setBusy true) rfl hd hn
  have hstep := (step_started (s := s.setInq (x :: xs)) hf).trans hexec
  exact ⟨_, _, _, hfeed, hrun, hstep, rfl, rfl, State.toInt_next hn, rfl⟩

/-- Settles O40: the jump makes no check of its target, and the fetch there makes its own. -/
theorem jumpTargetsAreTakenAsTheyAre : Obligations.JumpTargetsAreTakenAsTheyAre := by
  intro s i a b hbusy hr hv hf ha hb hi
  have hstep : step s = .next (s.setIp (s.value b)) := (step_of_fetch hbusy hr hf).trans (exec_of_taken ha hb hi)
  obtain ⟨hneg, -, hzero⟩ := fetchFaults (s.setIp (s.value b)) hbusy hr
  have hfault := State.raise_fault_of_invalid (s := s.setIp (s.value b)) hv
  refine ⟨_, hstep, rfl, fun h => ⟨_, hneg h, rfl, hfault _⟩, fun h0 hz => ⟨_, hzero h0 hz, rfl, ?_⟩,
    State.setIp_self⟩
  rw [hfault]
  exact ⟨rfl, rfl⟩

end Sys2Proof
end

section
/-! The scheduler (spec/60_exceptions.md, R351, R352): a transfer core by core, the turn of core CUR, and the end of its run. -/

namespace Sys2Proof.Machine

/-! ## The transfer -/

/-- R352: the transfer, from the core that receives. -/
theorem State.transfer_of_receiver {s : State} {i : Nat} {k t : CoreState} (hk : s.coreAt i = some k)
    (ht : (s.setCore i k.drained).coreAt ((i + 1) % s.netN) = some t) :
    (withinCap s.params.inCap (t.inq.length + k.buffered.length) = true →
      s.transfer i = (s.setCore i k.drained).setCore ((i + 1) % s.netN) { t with inq := t.inq ++ k.buffered }) ∧
    (withinCap s.params.inCap (t.inq.length + k.buffered.length) = false →
      s.transfer i = { s.setCore i k.drained with nstatus := .failed .queueOverflow }) := by
  obtain ⟨u, hu, hcase⟩ := State.transfer_cases hk
  cases ht.symm.trans hu
  obtain ⟨hw, e⟩ | ⟨hw, e⟩ := hcase
  · exact ⟨fun _ => e, fun hfull => absurd (hw.symm.trans hfull) (by decide)⟩
  · exact ⟨fun hroom => absurd (hw.symm.trans hroom) (by decide), fun _ => e⟩

theorem State.coreAt_setCore_same {s : State} {i : Nat} (k : CoreState) (h : i < s.netN) :
    (s.setCore i k).coreAt i = some k := by
  rw [State.coreAt_setCore, if_pos rfl, if_pos h]

theorem State.coreAt_setCore_ne {s : State} {i j : Nat} (k : CoreState) (h : j ≠ i) :
    (s.setCore i k).coreAt j = s.coreAt j := by
  rw [State.coreAt_setCore, if_neg h.symm]

/-! ## The turn, whichever core stands in front of the engine -/

theorem State.turnEndsIn_congr {s t u : State} (hc : t.cores = s.cores) (hp : t.params = s.params)
    (hcur : t.cur = s.cur) (hruns : t.runs = s.runs) (hn : t.nstatus = s.nstatus)
    (hs : t.scheduling = s.scheduling) (h : t.turnEndsIn u) : s.turnEndsIn u := by
  obtain ⟨hcores, hnet⟩ := State.transfer_congr hc hp hn s.cur
  unfold State.turnEndsIn at h ⊢
  rwa [hruns, hcur, State.netN_congr hc, hp, hs, hcores, hnet] at h

/-! ## The scheduler's step -/

theorem State.capReached_iff {s : State} :
    s.capReached = true ↔ ∃ c, s.params.roundCap = some c ∧ s.runs = c * s.netN := by
  unfold State.capReached
  cases s.params.roundCap with
  | none => simp
  | some c => simp

section
variable {s t : State}

theorem State.schedStep_of_settled (h : s.nstatus ≠ .scheduling) :
    s.schedStep = .next { s with scheduling := false } :=
  if_pos h

theorem State.schedStep_of_cap (hn : s.nstatus = .scheduling) (hcap : s.capReached = true) :
    s.schedStep = .next { s with nstatus := .failed .roundCapExceeded } := by
  rw [State.schedStep, if_neg (not_not_intro hn), if_pos hcap]

/-- R351: under the cap core CUR has its turn. -/
theorem State.schedStep_of_focus (hn : s.nstatus = .scheduling) (hcap : s.capReached = false)
    (ht : s.focus s.cur = some t) :
    s.schedStep = if t.status = .halted ∨ t.status = .faulted then .next t.afterRun else .next t.runBegin := by
  simp only [State.schedStep, hn, hcap, ht, ne_eq, not_true_eq_false, if_false, Bool.false_eq_true]

/-- R351: a core that has Faulted ends the schedule, and CUR stays at it. -/
theorem State.afterRun_of_faulted (h : s.status = .faulted) :
    s.afterRun = { s with runs := s.runs + 1, nstatus := .failed (.coreFault s.cur s.fault) } :=
  if_pos h

theorem State.runReturn_of_scheduler (hs : s.scheduling = true) : s.runReturn = (s.setBusy false).afterRun := by
  simp [State.runReturn, hs]

end

end Sys2Proof.Machine

namespace Sys2Proof

open Machine

/-! ## The statements -/

/-- Settles O56: two cores stored back, or the drained one and the failure. -/
theorem transferMovesTheBufferedOutputs : Obligations.TransferMovesTheBufferedOutputs := by
  intro s i k t hk ht
  obtain ⟨hroom, hfull⟩ := State.transfer_of_receiver hk ht
  refine ⟨fun hw => ?_, fun hw => ?_⟩
  · rw [hroom hw]
    refine ⟨State.coreAt_setCore_same _ (State.coreAt_lt ht), fun hne => ?_, fun j hji hjn => ?_, by simp⟩
    · rw [State.coreAt_setCore_ne _ hne, State.coreAt_setCore_same _ (State.coreAt_lt hk)]
    · rw [State.coreAt_setCore_ne _ hjn, State.coreAt_setCore_ne _ hji]
  · rw [hfull hw]
    exact ⟨rfl, rfl⟩

/-- Settles O57: core CUR, put in front of the engine, starts its run or ends its turn at once. -/
theorem schedulerRunsTheCurrentCore : Obligations.SchedulerRunsTheCurrentCore := by
  intro s hb hs
  rw [step_scheduling hb hs]
  refine ⟨State.schedStep_of_settled,
    fun hn c hcap hruns => State.schedStep_of_cap hn (State.capReached_iff.2 ⟨c, hcap, hruns⟩),
    fun hn hcap k hk => ?_⟩
  have hnocap : s.capReached = false := Bool.eq_false_iff.2 fun hreached => by
    obtain ⟨c, hc, hruns⟩ := State.capReached_iff.1 hreached
    exact hcap c hc hruns
  obtain ⟨t, ht⟩ := State.focus_isSome (State.coreAt_lt hk)
  obtain ⟨hc, hfront, hlen, hp, hcur, hruns, htn, hts⟩ := State.focus_some ht
  cases hk.symm.trans hfront
  have hstep := State.schedStep_of_focus hn hnocap ht
  refine ⟨fun hst => ?_, fun hst => ?_, fun hst => ?_⟩
  · have hnot : ¬ (t.status = .halted ∨ t.status = .faulted) := by
      obtain e | e := hst <;> simp [e]
    rw [if_neg hnot, State.runBegin_eq hnot] at hstep
    refine ⟨_, hstep, rfl, hlen, (State.netN_congr hc : t.netN = _), fun j hj => ?_, hruns, hcur, htn.trans hn,
      hts.trans hs⟩
    rw [State.started_eq_setCore, State.coreAt_setCore_ne _ (hlen.symm ▸ hj), State.coreAt_congr hc]
  · rw [if_pos (.inl hst)] at hstep
    have hnf : t.status ≠ .faulted := by simp [hst]
    exact ⟨_, hstep, State.turnEndsIn_congr hc hp hcur hruns htn hts
      (State.afterRun_turnEndsIn hnf (htn.trans hn))⟩
  · rw [if_pos (.inr hst), State.afterRun_of_faulted hst] at hstep
    exact ⟨_, hstep, by simp [hruns], hcur, hc, by simp [hcur]⟩

/-- Settles O58: the return clears BUSY and goes on with the scheduler's loop body. -/
theorem schedulerMovesOnAfterARun : Obligations.SchedulerMovesOnAfterARun := by
  intro s hb hr hs hn _
  refine ⟨_, step_returning hb hr, fun hf => ?_, fun hf => ?_⟩
  · rw [State.runReturn_of_scheduler hs, State.afterRun_of_faulted (s := s.setBusy false) hf]
    exact ⟨rfl, rfl, rfl, rfl⟩
  · rw [State.runReturn_of_scheduler hs]
    exact State.afterRun_turnEndsIn hf hn

end Sys2Proof
end
